-- ==== Sys2Proof/Word.lean ====
section
/-! DEFINITION. The word types of the block: every register, parameter, engine value and code word is 32 bits (R9, R49), and a serialized code word is four bytes (R43). -/

namespace Sys2Proof

/-- One byte of a serialized code word (R43). -/
abbrev Byte := BitVec 8

/-- A 32-bit value (`XLEN = 32`, R9): arithmetic on it is modulo 2^32 (R11). -/
abbrev Word := BitVec 32

end Sys2Proof
end

