-- ==== Sys2Proof/Syntax.lean ====
section
/-! DEFINITION. The instructions: one constructor of `Instr` for each row of spec/opcode_table.json, each with every field of its code word, the ignored bits among them (R60: every field is extracted from every word). -/

namespace Sys2Proof

/-- A general register index, a 3-bit field (R20, R23, R68 to R70). -/
inductive Reg where
  | r0 | r1 | r2 | r3 | r4 | r5 | r6 | r7
  deriving DecidableEq, Repr

/-- The eight result operations (R80), in the order of their values 0 to 7. -/
inductive ResultOp where
  /-- 0, IgnoreAndFetch (R173). -/
  | fetch
  /-- 1, Move (R174). -/
  | mov
  /-- 2, MoveAndSetMethod (R175). -/
  | movsm
  /-- 3, FetchAndSend (R176). -/
  | fetchsend
  /-- 4, MoveAndSend (R177). -/
  | movsend
  /-- 5, FetchAndSetMethod (R178). -/
  | fetchsm
  /-- 6, MoveAndSetMethodFetchAndSend (R179). -/
  | movsmfetchsend
  /-- 7, MoveAndSetMethodSend (R180). -/
  | movsmsend
  deriving DecidableEq, Repr

/-- The branch conditions (R81). -/
inductive BranchCondition where
  | zero | notZero
  deriving DecidableEq, Repr

/-- The fields of an ALU word (`operation = 0`) besides `alu_operation` (R82). -/
structure AluFields where
  res : ResultOp
  exit : Bool
  dst : Reg
  srcA : Reg
  srcB : Reg
  /-- Ignored (R63, R84). -/
  bit3 : Bool
  /-- Ignored (R82). -/
  bits31to22 : BitVec 10
  deriving DecidableEq, Repr

/-- The fields of an AddImmediate or Read word (R82). -/
structure ImmFields where
  res : ResultOp
  exit : Bool
  dst : Reg
  srcA : Reg
  /-- `word[31:14]`, sign-extended where it is used (R71). -/
  imm : BitVec 18
  /-- Ignored (R63, R84). -/
  bit3 : Bool
  deriving DecidableEq, Repr

/-- The fields of an ExtractInsert word (R82). -/
structure InsertFields where
  res : ResultOp
  exit : Bool
  dst : Reg
  srcA : Reg
  srcB : Reg
  srcBit : BitVec 5
  size : BitVec 5
  dstBit : BitVec 5
  /-- Ignored (R63, R84). -/
  bit3 : Bool
  deriving DecidableEq, Repr

/-- The fields of an ExtractShiftLeftImmediate word (R82). -/
structure ShiftImmFields where
  res : ResultOp
  exit : Bool
  dst : Reg
  srcA : Reg
  srcB : Reg
  size : BitVec 5
  dstBit : BitVec 5
  /-- Ignored (R63, R84). -/
  bit3 : Bool
  /-- Ignored (R82). -/
  bits21to17 : BitVec 5
  deriving DecidableEq, Repr

/-- The fields of an ExtractShiftLeftRegister word (R82). -/
structure ShiftRegFields where
  res : ResultOp
  exit : Bool
  dst : Reg
  srcA : Reg
  srcB : Reg
  srcBit : BitVec 5
  size : BitVec 5
  /-- Ignored (R63, R84). -/
  bit3 : Bool
  /-- Ignored (R82). -/
  bits31to27 : BitVec 5
  deriving DecidableEq, Repr

/-- The fields of a Branch word besides its condition and annul bits (R82, R158). `src_b` is the low 3 bits of `imm`. -/
structure BranchFields where
  exit : Bool
  srcA : Reg
  /-- `word[31:14]`, sign-extended where it is used (R71). -/
  imm : BitVec 18
  /-- Ignored (R63, R84). -/
  bit3 : Bool
  /-- Ignored (R158). -/
  bit6 : Bool
  /-- Ignored (R158). -/
  bits10to8 : BitVec 3
  deriving DecidableEq, Repr

/-- The instruction set: one constructor per row of spec/opcode_table.json (R78, R79, R81). -/
inductive Instr where
  /-- ADD (R111). -/
  | add (f : AluFields)
  /-- ADDC (R112). -/
  | addc (f : AluFields)
  /-- SUB (R113). -/
  | sub (f : AluFields)
  /-- SUBB (R114). -/
  | subb (f : AluFields)
  /-- XOR (R115). -/
  | xor (f : AluFields)
  /-- OR (R116). -/
  | or (f : AluFields)
  /-- AND (R117). -/
  | and (f : AluFields)
  /-- ANDN (R118). -/
  | andn (f : AluFields)
  /-- NAND (R119). -/
  | nand (f : AluFields)
  /-- ALU.RSVD(4-7) (R120): `op` is the whole `alu_operation` field. -/
  | aluRsvd4to7 (op : BitVec 5) (f : AluFields)
  /-- ALU.RSVD(13) (R120). -/
  | aluRsvd13 (f : AluFields)
  /-- ALU.RSVD(14-15) (R120): `op` is the whole `alu_operation` field. -/
  | aluRsvd14to15 (op : BitVec 5) (f : AluFields)
  /-- ALU.RSVD(16-31) (R120): `op` is the whole `alu_operation` field. -/
  | aluRsvd16to31 (op : BitVec 5) (f : AluFields)
  /-- ADDI (R121). -/
  | addi (f : ImmFields)
  /-- EXTINS (R131). -/
  | extins (f : InsertFields)
  /-- EXTSHLI (R132). -/
  | extshli (f : ShiftImmFields)
  /-- EXTSHLR (R133). -/
  | extshlr (f : ShiftRegFields)
  /-- READ (R140). -/
  | read (f : ImmFields)
  /-- UNUSED (R159): bits 31:3 are ignored. -/
  | unused (bits31to3 : BitVec 29)
  /-- BRZ (R154). -/
  | brz (f : BranchFields)
  /-- BRNZ (R155). -/
  | brnz (f : BranchFields)
  /-- BRZ.A (R156). -/
  | brzA (f : BranchFields)
  /-- BRNZ.A (R157). -/
  | brnzA (f : BranchFields)
  deriving DecidableEq, Repr

end Sys2Proof
end

