-- ==== Sys2Proof/Decode.lean ====
section
/-! DEFINITION. The decoder (R60 to R81: total on words; on bytes it rejects by name only a string shorter than one word), the little-endian byte form of a word (R43), and the encoder written from the same tables. -/

namespace Sys2Proof

/-! ## Fields of a word -/

/-- A register index from its 3 bits (R68 to R70). -/
def Reg.ofBits (b : BitVec 3) : Reg :=
  match b.toNat with
  | 0 => .r0
  | 1 => .r1
  | 2 => .r2
  | 3 => .r3
  | 4 => .r4
  | 5 => .r5
  | 6 => .r6
  | _ => .r7

/-- The 3 bits of a register index. -/
def Reg.toBits (r : Reg) : BitVec 3 :=
  match r with
  | .r0 => 0
  | .r1 => 1
  | .r2 => 2
  | .r3 => 3
  | .r4 => 4
  | .r5 => 5
  | .r6 => 6
  | .r7 => 7

/-- A result operation from its value (R80). -/
def ResultOp.ofBits (b : BitVec 3) : ResultOp :=
  match b.toNat with
  | 0 => .fetch
  | 1 => .mov
  | 2 => .movsm
  | 3 => .fetchsend
  | 4 => .movsend
  | 5 => .fetchsm
  | 6 => .movsmfetchsend
  | _ => .movsmsend

/-- The value of a result operation (R80). -/
def ResultOp.toBits (r : ResultOp) : BitVec 3 :=
  match r with
  | .fetch => 0
  | .mov => 1
  | .movsm => 2
  | .fetchsend => 3
  | .movsend => 4
  | .fetchsm => 5
  | .movsmfetchsend => 6
  | .movsmsend => 7

/-- `word[k]`, one bit (R10). -/
def bitField (w : Word) (k : Nat) : Bool := w.extractLsb' k 1 == 1#1

/-- `operation = word[2:0]` (R62). -/
def operationField (w : Word) : BitVec 3 := w.extractLsb' 0 3

/-- `result_operation = word[6:4]` (R64). -/
def resultField (w : Word) : ResultOp := .ofBits (w.extractLsb' 4 3)

/-- `branch_condition = word[4]` (R65, R81). -/
def conditionField (w : Word) : BranchCondition := if bitField w 4 then .notZero else .zero

/-- `branch_annul = word[5]` (R66). -/
def annulField (w : Word) : Bool := bitField w 5

/-- `is_exit = word[7]` (R67). -/
def exitField (w : Word) : Bool := bitField w 7

/-- `dst = word[10:8]` (R68). -/
def dstField (w : Word) : Reg := .ofBits (w.extractLsb' 8 3)

/-- `src_a = word[13:11]` (R69). -/
def srcAField (w : Word) : Reg := .ofBits (w.extractLsb' 11 3)

/-- `src_b = word[16:14]` (R70). -/
def srcBField (w : Word) : Reg := .ofBits (w.extractLsb' 14 3)

/-- `word[31:14]`, the immediate before its sign extension (R71). -/
def immField (w : Word) : BitVec 18 := w.extractLsb' 14 18

/-- `alu_operation`, and `bf_src_bit`, `= word[21:17]` (R72, R73). -/
def field21to17 (w : Word) : BitVec 5 := w.extractLsb' 17 5

/-- `bf_size = word[26:22]` (R74). -/
def sizeField (w : Word) : BitVec 5 := w.extractLsb' 22 5

/-- `bf_dst_bit = word[31:27]` (R75). -/
def field31to27 (w : Word) : BitVec 5 := w.extractLsb' 27 5

/-! ## Decoding -/

/-- The fields of an ALU word (R82). -/
def aluFields (w : Word) : AluFields :=
  { res := resultField w, exit := exitField w, dst := dstField w, srcA := srcAField w, srcB := srcBField w,
    bit3 := bitField w 3, bits31to22 := w.extractLsb' 22 10 }

/-- The fields of an AddImmediate or Read word (R82). -/
def immFields (w : Word) : ImmFields :=
  { res := resultField w, exit := exitField w, dst := dstField w, srcA := srcAField w, imm := immField w,
    bit3 := bitField w 3 }

/-- The fields of an ExtractInsert word (R82). -/
def insertFields (w : Word) : InsertFields :=
  { res := resultField w, exit := exitField w, dst := dstField w, srcA := srcAField w, srcB := srcBField w,
    srcBit := field21to17 w, size := sizeField w, dstBit := field31to27 w, bit3 := bitField w 3 }

/-- The fields of an ExtractShiftLeftImmediate word (R82). -/
def shiftImmFields (w : Word) : ShiftImmFields :=
  { res := resultField w, exit := exitField w, dst := dstField w, srcA := srcAField w, srcB := srcBField w,
    size := sizeField w, dstBit := field31to27 w, bit3 := bitField w 3, bits21to17 := field21to17 w }

/-- The fields of an ExtractShiftLeftRegister word (R82). -/
def shiftRegFields (w : Word) : ShiftRegFields :=
  { res := resultField w, exit := exitField w, dst := dstField w, srcA := srcAField w, srcB := srcBField w,
    srcBit := field21to17 w, size := sizeField w, bit3 := bitField w 3, bits31to27 := field31to27 w }

/-- The fields of a Branch word (R82). -/
def branchFields (w : Word) : BranchFields :=
  { exit := exitField w, srcA := srcAField w, imm := immField w, bit3 := bitField w 3, bit6 := bitField w 6,
    bits10to8 := w.extractLsb' 8 3 }

/-- The ALU sub-operations (R79); a value without one is reserved and still decodes (R60, R83). -/
def decodeAlu (op : BitVec 5) (f : AluFields) : Instr :=
  match op.toNat with
  | 0 => .add f
  | 1 => .addc f
  | 2 => .sub f
  | 3 => .subb f
  | 4 => .aluRsvd4to7 op f
  | 5 => .aluRsvd4to7 op f
  | 6 => .aluRsvd4to7 op f
  | 7 => .aluRsvd4to7 op f
  | 8 => .xor f
  | 9 => .or f
  | 10 => .and f
  | 11 => .andn f
  | 12 => .nand f
  | 13 => .aluRsvd13 f
  | 14 => .aluRsvd14to15 op f
  | 15 => .aluRsvd14to15 op f
  | _ => .aluRsvd16to31 op f

/-- The four branches by `branch_condition` and `branch_annul` (R154 to R157). -/
def decodeBranch (c : BranchCondition) (annul : Bool) (f : BranchFields) : Instr :=
  match c, annul with
  | .zero, false => .brz f
  | .notZero, false => .brnz f
  | .zero, true => .brzA f
  | .notZero, true => .brnzA f

/-- Decode (R60): total, a function of the word alone; the operations by value (R78). -/
def decodeWord (w : Word) : Instr :=
  match (operationField w).toNat with
  | 0 => decodeAlu (field21to17 w) (aluFields w)
  | 1 => .addi (immFields w)
  | 2 => .extins (insertFields w)
  | 3 => .extshli (shiftImmFields w)
  | 4 => .extshlr (shiftRegFields w)
  | 5 => .read (immFields w)
  | 6 => .unused (w.extractLsb' 3 29)
  | _ => decodeBranch (conditionField w) (annulField w) (branchFields w)

/-- Why a byte string is no code word. Decode itself has no failure mode (R60). -/
inductive DecodeError where
  /-- Fewer than the four bytes of one code word (R61); the number of bytes there were. -/
  | truncated (bytes : Nat)
  deriving DecidableEq, Repr

/-- The four bytes of a code word, little-endian: byte `j` holds bits `[8j+7:8j]` (R43). -/
def bytesOfWord (w : Word) : List Byte :=
  [w.extractLsb' 0 8, w.extractLsb' 8 8, w.extractLsb' 16 8, w.extractLsb' 24 8]

/-- A field's bits at their place in a word, from bit `lo` up; every other bit 0 (R10). -/
def placeAt (lo : Nat) {n : Nat} (b : BitVec n) : Word := b.setWidth 32 <<< lo

/-- The code word that four bytes carry, `b0` at the lowest address (R43). -/
def wordOfBytes (b0 b1 b2 b3 : Byte) : Word := placeAt 0 b0 ||| placeAt 8 b1 ||| placeAt 16 b2 ||| placeAt 24 b3

/-- One instruction from a byte string, with the bytes after it: every four bytes are a word (R43, R60, R61). -/
def decodeBytes (bs : List Byte) : Except DecodeError (Instr × List Byte) :=
  match bs with
  | b0 :: b1 :: b2 :: b3 :: rest => .ok (decodeWord (wordOfBytes b0 b1 b2 b3), rest)
  | short => .error (.truncated short.length)

/-- The instruction the decoder reads from the `nbits` bits `w` of an opcode-table row, every bit above them 0: the word is
laid out as four bytes, little-endian, and given to `decodeBytes`. -/
def decodeTableWord (nbits w : Nat) : Option Instr :=
  match decodeBytes (bytesOfWord (BitVec.ofNat 32 (w % 2 ^ nbits))) with
  | .ok (i, _) => some i
  | .error _ => none

/-! ## Encoding -/

/-- The fields nearly every operation has, from bit 0 up: `operation`, bit 3, `result_operation`, `is_exit`, `dst`
(R62 to R68). -/
def encodeLow (operation : BitVec 3) (bit3 : Bool) (res : ResultOp) (exit : Bool) (dst : Reg) : Word :=
  placeAt 0 operation ||| placeAt 3 (BitVec.ofBool bit3) ||| placeAt 4 res.toBits ||| placeAt 7 (BitVec.ofBool exit) |||
    placeAt 8 dst.toBits

/-- An ALU word (R62 to R72, R82). -/
def encodeAlu (op : BitVec 5) (f : AluFields) : Word :=
  encodeLow 0 f.bit3 f.res f.exit f.dst ||| placeAt 11 f.srcA.toBits ||| placeAt 14 f.srcB.toBits ||| placeAt 17 op |||
    placeAt 22 f.bits31to22

/-- An AddImmediate or Read word, by its operation value (R62 to R71, R82). -/
def encodeImm (operation : BitVec 3) (f : ImmFields) : Word :=
  encodeLow operation f.bit3 f.res f.exit f.dst ||| placeAt 11 f.srcA.toBits ||| placeAt 14 f.imm

/-- An ExtractInsert word (R62 to R75, R82). -/
def encodeInsert (f : InsertFields) : Word :=
  encodeLow 2 f.bit3 f.res f.exit f.dst ||| placeAt 11 f.srcA.toBits ||| placeAt 14 f.srcB.toBits |||
    placeAt 17 f.srcBit ||| placeAt 22 f.size ||| placeAt 27 f.dstBit

/-- An ExtractShiftLeftImmediate word (R62 to R75, R82). -/
def encodeShiftImm (f : ShiftImmFields) : Word :=
  encodeLow 3 f.bit3 f.res f.exit f.dst ||| placeAt 11 f.srcA.toBits ||| placeAt 14 f.srcB.toBits |||
    placeAt 17 f.bits21to17 ||| placeAt 22 f.size ||| placeAt 27 f.dstBit

/-- An ExtractShiftLeftRegister word (R62 to R75, R82). -/
def encodeShiftReg (f : ShiftRegFields) : Word :=
  encodeLow 4 f.bit3 f.res f.exit f.dst ||| placeAt 11 f.srcA.toBits ||| placeAt 14 f.srcB.toBits |||
    placeAt 17 f.srcBit ||| placeAt 22 f.size ||| placeAt 27 f.bits31to27

/-- A Branch word, by its `branch_annul` and `branch_condition` bits (R62 to R71, R82). -/
def encodeBranch (annul notZero : Bool) (f : BranchFields) : Word :=
  placeAt 0 7#3 ||| placeAt 3 (BitVec.ofBool f.bit3) ||| placeAt 4 (BitVec.ofBool notZero) |||
    placeAt 5 (BitVec.ofBool annul) ||| placeAt 6 (BitVec.ofBool f.bit6) ||| placeAt 7 (BitVec.ofBool f.exit) |||
    placeAt 8 f.bits10to8 ||| placeAt 11 f.srcA.toBits ||| placeAt 14 f.imm

/-- The code word of an instruction (R62 to R81). -/
def encode (i : Instr) : Word :=
  match i with
  | .add f => encodeAlu 0 f
  | .addc f => encodeAlu 1 f
  | .sub f => encodeAlu 2 f
  | .subb f => encodeAlu 3 f
  | .xor f => encodeAlu 8 f
  | .or f => encodeAlu 9 f
  | .and f => encodeAlu 10 f
  | .andn f => encodeAlu 11 f
  | .nand f => encodeAlu 12 f
  | .aluRsvd4to7 op f => encodeAlu op f
  | .aluRsvd13 f => encodeAlu 13 f
  | .aluRsvd14to15 op f => encodeAlu op f
  | .aluRsvd16to31 op f => encodeAlu op f
  | .addi f => encodeImm 1 f
  | .extins f => encodeInsert f
  | .extshli f => encodeShiftImm f
  | .extshlr f => encodeShiftReg f
  | .read f => encodeImm 5 f
  | .unused bits31to3 => placeAt 0 6#3 ||| placeAt 3 bits31to3
  | .brz f => encodeBranch false false f
  | .brnz f => encodeBranch false true f
  | .brzA f => encodeBranch true false f
  | .brnzA f => encodeBranch true true f

end Sys2Proof
end

