-- ==== Sys2Proof/Config.lean ====
section
/-! DEFINITION. What an implementation fixes and the spec leaves open (R9): the named parameters `BRANCH_TEST_FIELD` and `READ_ADMITS` as plain data, the draws `LARGE_SHIFT` and `READ_ORACLE` as constants without a body, and the engine events those draws may depend on. -/

namespace Sys2Proof

/-- One engine event of an invocation's trace (R47, R48, R215). -/
inductive Event where
  /-- `W(addr, value)`: an engine write, performed by a Send (R47). -/
  | write (addr value : Word)
  /-- `R(addr, value)`: an engine read and the value the collaborator returned (R48). -/
  | read (addr value : Word)
  deriving DecidableEq, Repr

/-- The admissible values of `BRANCH_TEST_FIELD` (R151, decision D3). -/
inductive BranchTestField where
  /-- The spec's own value: the tested register is `src_b`, the low 3 bits of the immediate. -/
  | srcB
  /-- The other admissible value: the tested register is `src_a`. -/
  | srcA
  deriving DecidableEq, Repr

/-- The two open parameters of R9 that select a behaviour. They are fixed for a machine: no step writes them
(DESIGN CHOICE, log entry 4: they stand in State as data, so that a statement about every state holds for every value). -/
structure Params where
  /-- `BRANCH_TEST_FIELD` (R151). -/
  branchTest : BranchTestField
  /-- `READ_ADMITS` (R142), given by the engine addresses it rejects; every other address is admitted. -/
  readRefused : List Word
  deriving DecidableEq, Repr

/-- The values the spec itself gives the open parameters: `src_b` (R151), and every address admitted (R142). -/
def Params.spec : Params := { branchTest := .srcB, readRefused := [] }

/-- FREE VALUE `LARGE_SHIFT` (R136, D9): what a register-sourced shift by 32 or more gives. The argument is the number of
the draw, so two draws need not agree. Log entry 2. -/
opaque Config.largeShift (draw : Nat) : Word

/-- FREE VALUE `READ_ORACLE` (R48, D11): the value an admitted Read returns, from the number of the draw, the address and
the trace so far. Log entry 3. -/
opaque Config.readOracle (draw : Nat) (addr : Word) (trace : List Event) : Word

end Sys2Proof
end

