-- ==== Sys2Proof/Machine/Operands.lean ====
section
/-! DEFINITION. Derived operands: the immediate, the branch target and tested register, the bitfield mask and its two shapes, the method-address fields. -/

namespace Sys2Proof.Machine

open Sys2Proof

/-- `immediate = sext_18(word[31:14])` (R71). -/
def immediate (imm : BitVec 18) : Word := imm.signExtend 32

/-- A branch's target: `(base + (immediate << 2)) mod 2^32` (R77, R153). -/
def branchTarget (base : Word) (imm : BitVec 18) : Word := base + (immediate imm <<< 2)

/-- `src_b` of a branch: the low 3 bits of its immediate (R71, R151). -/
def branchSrcB (imm : BitVec 18) : Reg := Reg.ofBits (imm.extractLsb' 0 3)

/-- The register a branch tests, by `BRANCH_TEST_FIELD` (R151; 90_conflicts.md C6). -/
def testedReg (p : Params) (f : BranchFields) : Reg :=
  match p.branchTest with
  | .srcB => branchSrcB f.imm
  | .srcA => f.srcA

/-- Whether the collaborator answers a Read of this address: `READ_ADMITS` (R142). -/
def readAdmits (p : Params) (addr : Word) : Bool := !p.readRefused.contains addr

/-- `bitfield_mask = (1 << bf_size) - 1` (R76, R130). -/
def bitfieldMask (size : BitVec 5) : Word := (1#32 <<< size.toNat) - 1#32

/-- `(b >> src_bit) & mask`: the field of EXTINS and EXTSHLR (R131, R133). -/
def extractField (b : Word) (srcBit size : BitVec 5) : Word := (b >>> srcBit.toNat) &&& bitfieldMask size

/-- EXTINS: the field of `b` merged into `a`, the destination bits cleared first; both shifts keep 32 bits (R131, R135). -/
def insertField (a b : Word) (srcBit size dstBit : BitVec 5) : Word :=
  (a &&& ~~~(bitfieldMask size <<< dstBit.toNat)) ||| (extractField b srcBit size <<< dstBit.toNat)

/-- `method_address.address`, bits 11:0 (R30). -/
def addressField (ma : Word) : BitVec 12 := ma.extractLsb' 0 12

/-- `method_address.increment`, bits 17:12 (R31). -/
def incrementField (ma : Word) : BitVec 6 := ma.extractLsb' 12 6

/-- The advance after a Send: `address` plus `increment` modulo 4096, bits 31:12 unchanged (R182; 90_conflicts.md C1). -/
def advanceAddress (ma : Word) : Word :=
  (ma &&& 0xFFFFF000#32) ||| (addressField ma + (incrementField ma).setWidth 12).setWidth 32

end Sys2Proof.Machine
end

