-- ==== Sys2Proof/Machine/State.lean ====
section
/-! DEFINITION. The state of the block as plain data (10_state.md), what surrounds it at its interface (the uploaded methods and the caller's pending requests, 70_reset_and_hazards.md), the faults of 60_exceptions.md, and the state at reset. -/

namespace Sys2Proof.Machine

open Sys2Proof

/-- The stored general registers. `x[0]` is hard-wired to zero and has no storage (R20, R21, R22). -/
structure RegFile where
  x1 : Word
  x2 : Word
  x3 : Word
  x4 : Word
  x5 : Word
  x6 : Word
  x7 : Word
  deriving DecidableEq, Repr

/-- The sequencer mode (R28). -/
inductive SeqMode where
  /-- `Normal`: the next step is no delay-slot step. -/
  | normal
  /-- `Delay(halt_after)`: the next step is a delay-slot step, after which the invocation halts when `haltAfter` is true. -/
  | delay (haltAfter : Bool)
  deriving DecidableEq, Repr

/-- The faults of R201 with the information each records. Every one is raised INTO THE STATE (`status <- Faulted(f)`, R205)
by the operation named: `step` goes on answering `next`, and never answers `Host.Outcome.fault` (log entry 6). -/
inductive Fault where
  /-- 0x01 `E_UNUSED_OP`: raised by the meaning of UNUSED (R159). Safe: the effect the spec gives. -/
  | unusedOp (word base : Word)
  /-- 0x02 `E_ALU_UNIMPL`: raised by the meanings of ADDC, SUBB and the reserved ALU rows (R112, R114, R120). Safe: the effect the spec gives. -/
  | aluUnimpl (word base : Word)
  /-- 0x03 `E_RESULT_UNIMPL`: raised by nothing, all eight result operations are defined (R183). Safe: listed by the spec as unreachable. -/
  | resultUnimpl (word base : Word)
  /-- 0x10 `E_BRANCH_IN_DELAY_SLOT`: raised by the four branches in a delay slot (R150). Safe: the effect the spec gives. -/
  | branchInDelaySlot (word base : Word)
  /-- 0x11 `E_PARAM_OVERRUN`: raised by FetchParameter with no parameter left (R171). Safe: the effect the spec gives. -/
  | paramOverrun (cursor : Nat) (word base : Word)
  /-- 0x12 `E_PARAM_UNCONSUMED`: raised by the normal halt with parameters left over (R214). Safe: the effect the spec gives. -/
  | paramUnconsumed (cursor len : Nat)
  /-- 0x13 `E_NO_PARAMS`: raised by an Execute request with an empty list (R231). Safe: the effect the spec gives. -/
  | noParams
  /-- 0x14 `E_NO_CODE`: raised by an Execute request for a method with no upload buffer (R234). Safe: the effect the spec gives. -/
  | noCode (method : Word)
  /-- 0x15 `E_REG_INDEX`: raised by nothing, a register index is a 3-bit field (R23). Safe: listed by the spec as unreachable. -/
  | regIndex (index : Nat)
  /-- 0x16 `E_FETCH_RANGE`: raised by the fetch at an offset with no uploaded word (R42). Unsafe only in that the spec decided it, the source being silent (D7; log entry 11). -/
  | fetchRange (pc : Word)
  /-- 0x20 `E_READ_REFUSED`: raised by READ of an address that `READ_ADMITS` rejects (R142). Safe: the effect the spec gives. -/
  | readRefused (addr word base : Word)
  deriving DecidableEq, Repr

/-- Why the model would give an instruction no meaning. -/
inductive Refusal where
  /-- An arm of `exec` without a meaning, by its opcode-table mnemonic. No arm answers it. Safe: nothing is claimed of such a step. -/
  | notModelled (mnemonic : String)
  deriving DecidableEq, Repr

/-- The invocation status (R36). -/
inductive Status where
  | running
  | halted
  | faulted (f : Fault)
  deriving DecidableEq, Repr

/-- What the caller asks of the block, in order (R233). -/
inductive Request where
  /-- `AddCode(method, word)` (R235). -/
  | addCode (method word : Word)
  /-- `Execute(method, parameters)` (R230, R231, R234). -/
  | execute (method : Word) (parameters : List Word)
  deriving DecidableEq, Repr

/-- What has been uploaded for one method number (R233 to R235, R52). -/
structure MethodEntry where
  number : Word
  /-- The upload buffer: every word `AddCode` appended, in order. -/
  uploaded : List Word
  /-- The program the method's first invocation fixed; `none` before it (R52). -/
  compiled : Option (List Word)
  deriving DecidableEq, Repr

/-- The word a step executes and its byte offset `base` (R91): what a fault in a step records (R201). -/
structure Site where
  word : Word
  base : Word
  deriving DecidableEq, Repr

/-- What the dispatched operation tells the sequencer (R94). -/
inductive Flow where
  /-- `Continue`. -/
  | cont
  /-- `TakenAnnulled`. -/
  | takenAnnulled
  /-- `TakenDelayed`. -/
  | takenDelayed
  deriving DecidableEq, Repr

/-- The state. The first block of fields is one invocation's (10_state.md); then the observation so far; then what the
block's interface keeps between invocations; then the model's own parameters and draw counter. -/
structure State where
  /-- General registers (R20 to R24). -/
  regs : RegFile
  /-- Program counter, a byte offset within the program (R25). -/
  pc : Word
  /-- Pending-branch slot (R27). -/
  pending : Option Word
  /-- Sequencer mode (R28). -/
  seqMode : SeqMode
  /-- Method-address register: `address` 11:0, `increment` 17:12 (R29 to R32). -/
  methodAddress : Word
  /-- Parameter cursor, an unbounded natural (R34, D33). -/
  cursor : Nat
  /-- Parameter list of the invocation (R33). -/
  parameters : List Word
  /-- Program of the invocation; word `k` is at byte offset `4k` (R35, R41). -/
  program : List Word
  /-- Invocation status (R36). -/
  status : Status
  /-- Engine events of the invocation, oldest first (R215, R230). -/
  trace : List Event
  /-- Uploaded methods, by strictly rising number (R52, R233 to R235). -/
  methods : List MethodEntry
  /-- The caller's requests not yet served, oldest first; served between invocations (R213, R233). -/
  requests : List Request
  /-- The open parameters `BRANCH_TEST_FIELD` and `READ_ADMITS` (R9). -/
  params : Params
  /-- THE MODEL'S OWN: how many free values have been drawn (log entry 5). -/
  draws : Nat
  deriving DecidableEq, Repr

/-- Reset is the entry of an invocation (D31): every field as R230 and 10_state.md give it, with nothing uploaded, no
program word, nothing requested, and the caller's parameter list the single value 0 (DESIGN CHOICE, log entry 1: the list is
an input the spec gives no value; R33 makes it non-empty). -/
def State.reset : State :=
  { regs := { x1 := 0, x2 := 0, x3 := 0, x4 := 0, x5 := 0, x6 := 0, x7 := 0 }
    pc := 0
    pending := none
    seqMode := .normal
    methodAddress := 0
    cursor := 1
    parameters := [0]
    program := []
    status := .running
    trace := []
    methods := []
    requests := []
    params := Params.spec
    draws := 0 }

end Sys2Proof.Machine
end

