-- ==== Sys2Proof/Machine/Ops.lean ====
section
/-! DEFINITION. The named operations every meaning is written from: registers, fetch, engine accesses, parameters, Send, the result operations, raising a fault (the block's one exception entry; it has no return from one, R207), the halt, the sequencer, and the one shape of a step after its fetch (R90). -/

namespace Sys2Proof.Machine

open Sys2Proof

/-! ## General registers -/

/-- `GetRegister(i)`: 0 for register 0, else the stored value (R21). -/
def RegFile.read (x : RegFile) (r : Reg) : Word :=
  match r with
  | .r0 => 0
  | .r1 => x.x1
  | .r2 => x.x2
  | .r3 => x.x3
  | .r4 => x.x4
  | .r5 => x.x5
  | .r6 => x.x6
  | .r7 => x.x7

/-- `SetRegister(i, v)`: no effect on register 0, else stores `v` (R22). -/
def RegFile.write (x : RegFile) (r : Reg) (v : Word) : RegFile :=
  match r with
  | .r0 => x
  | .r1 => { x with x1 := v }
  | .r2 => { x with x2 := v }
  | .r3 => { x with x3 := v }
  | .r4 => { x with x4 := v }
  | .r5 => { x with x5 := v }
  | .r6 => { x with x6 := v }
  | .r7 => { x with x7 := v }

/-- `x[i]` (R12, R21). -/
def State.readReg (s : State) (r : Reg) : Word := s.regs.read r

/-- `x[i] <- v` (R12, R22). -/
def State.writeReg (s : State) (r : Reg) (v : Word) : State := { s with regs := s.regs.write r v }

/-! ## Raising a fault and halting -/

/-- `raise f`: the invocation ends, `status <- Faulted(f)`; the trace stands, nothing is saved for a return and control goes
nowhere (R200, R205, R207). What the step had already done stays done (R206). -/
def State.raise (s : State) (f : Fault) : State := { s with status := .faulted f }

/-- `halt`: the normal end, with its check that every parameter was consumed (R214). -/
def State.halt (s : State) : State :=
  if s.cursor = s.parameters.length then { s with status := .halted }
  else s.raise (.paramUnconsumed s.cursor s.parameters.length)

/-! ## Fetch -/

/-- `Fetch(pc)`: the word at a byte offset, none where the offset is no multiple of 4 or lies past the last word, for which
the step raises `E_FETCH_RANGE` (R42). -/
def fetchWord (program : List Word) (pc : Word) : Option Word :=
  if pc.toNat % 4 = 0 then program[pc.toNat / 4]? else none

/-! ## Engine registers, through the collaborator's two calls -/

/-- `EngineWrite(addr, v)`: never fails, appends `W(addr, v)` to the trace (R47). -/
def State.engineWrite (s : State) (addr v : Word) : State := { s with trace := s.trace ++ [.write addr v] }

/-- The value of the next `READ_ORACLE` draw for an address (R48). -/
def State.oracleValue (s : State) (addr : Word) : Word := Config.readOracle s.draws addr s.trace

/-- `EngineRead(addr)`: the oracle's value, appending `R(addr, v)` to the trace (R48). -/
def State.engineRead (s : State) (addr : Word) : Word × State :=
  (s.oracleValue addr,
    { s with trace := s.trace ++ [.read addr (s.oracleValue addr)], draws := s.draws + 1 })

/-! ## Shifts by a register -/

/-- A draw of `LARGE_SHIFT` (R136). -/
def State.drawLargeShift (s : State) : Word × State := (Config.largeShift s.draws, { s with draws := s.draws + 1 })

/-- `ShiftRightReg(b, n)`: the logical right shift for `n <= 31`, else a draw (R136). -/
def State.shiftRightReg (s : State) (b n : Word) : Word × State :=
  if n.toNat < 32 then (b >>> n.toNat, s) else s.drawLargeShift

/-- `ShiftLeftReg(f, n)`: the left shift for `n <= 31`, else a draw (R136). -/
def State.shiftLeftReg (s : State) (f n : Word) : Word × State :=
  if n.toNat < 32 then (f <<< n.toNat, s) else s.drawLargeShift

/-! ## Parameters, method address, Send -/

/-- `FetchParameter()`: the parameter at the cursor, which advances; `E_PARAM_OVERRUN` when none is left (R171). -/
def State.fetchParameter (s : State) (site : Site) : Except State (Word × State) :=
  match s.parameters[s.cursor]? with
  | none => .error (s.raise (.paramOverrun s.cursor site.word site.base))
  | some v => .ok (v, { s with cursor := s.cursor + 1 })

/-- `x[d] <- FetchParameter()` (R173, R176, R178). -/
def State.fetchInto (s : State) (site : Site) (d : Reg) : Except State State :=
  match s.fetchParameter site with
  | .error t => .error t
  | .ok (v, t) => .ok (t.writeReg d v)

/-- `SetMethod(result)`: all 32 bits of the method-address register (R172). -/
def State.setMethod (s : State) (v : Word) : State := { s with methodAddress := v }

/-- `Send(v)`: `v` to the engine register `address` names, then the advance (R181, R182). -/
def State.send (s : State) (v : Word) : State :=
  (s.engineWrite ((addressField s.methodAddress).setWidth 32) v).setMethod (advanceAddress s.methodAddress)

/-! ## Result operations -/

/-- `ResultOp(ro, d, result)`: the effects in the order of the rule's pseudocode; a fault leaves those before it done
(R170, R173 to R180, R184). -/
def State.applyResult (s : State) (site : Site) (ro : ResultOp) (d : Reg) (result : Word) : Except State State :=
  match ro with
  | .fetch => s.fetchInto site d
  | .mov => .ok (s.writeReg d result)
  | .movsm => .ok ((s.writeReg d result).setMethod result)
  | .fetchsend =>
    match s.fetchInto site d with
    | .error t => .error t
    | .ok t => .ok (t.send result)
  | .movsend => .ok ((s.writeReg d result).send result)
  | .fetchsm =>
    match s.fetchInto site d with
    | .error t => .error t
    | .ok t => .ok (t.setMethod result)
  | .movsmfetchsend =>
    match ((s.writeReg d result).setMethod result).fetchParameter site with
    | .error t => .error t
    | .ok (p, t) => .ok (t.send p)
  | .movsmsend => .ok (((s.writeReg d result).setMethod result).send ((result >>> 12) &&& 0x3F#32))

/-! ## The sequencer -/

/-- `in_delay`: the step is a delay-slot step (R90). -/
def State.inDelay (s : State) : Bool := s.seqMode != .normal

/-- `halt_after`: the delay-slot chain was started by an exit (R90). -/
def State.haltAfter (s : State) : Bool := s.seqMode == .delay true

/-- The advance of a step that fetched a word: `pc + 4`, overwritten by the pending target, which is emptied (R92, R93). -/
def State.advance (s : State) : State := { s with pc := s.pending.getD (s.pc + 4), pending := none }

/-- `seq_mode <- m`. -/
def State.setSeqMode (s : State) (m : SeqMode) : State := { s with seqMode := m }

/-- `Sequence(outcome, is_exit, in_delay, halt_after)`: the table of R95, in its order (R96 to R99). -/
def State.sequence (s : State) (flow : Flow) (isExit inDelay haltAfter : Bool) : State :=
  match flow with
  | .takenAnnulled => s.setSeqMode .normal
  | .takenDelayed => s.setSeqMode (.delay false)
  | .cont =>
    if isExit then s.setSeqMode (.delay true)
    else if inDelay && haltAfter then s.halt
    else s.setSeqMode .normal

/-! ## A step after its fetch -/

/-- R90 after Fetch and Decode: the advance, the operation `body`, the sequencer. `body` is given the site (the word and
`base`, R91) and the advanced state; where it raises, the step ends there (R206). -/
def runStep (i : Instr) (isExit : Bool) (body : Site → State → Except State (Flow × State)) (s : State) :
    Host.Outcome State Fault Refusal :=
  match body { word := encode i, base := s.pc } s.advance with
  | .error t => .next t
  | .ok (flow, t) => .next (t.sequence flow isExit s.inDelay s.haltAfter)

/-- An operation that computes a result and applies its result operation, then continues (R94, R170). -/
def runResult (i : Instr) (isExit : Bool) (ro : ResultOp) (d : Reg)
    (compute : Site → State → Except State (Word × State)) (s : State) : Host.Outcome State Fault Refusal :=
  runStep i isExit
    (fun site s1 =>
      match compute site s1 with
      | .error t => .error t
      | .ok (result, s2) =>
        match s2.applyResult site ro d result with
        | .error t => .error t
        | .ok s3 => .ok (.cont, s3))
    s

/-- An operation that only raises a fault (R112, R114, R120, R159). -/
def runFault (i : Instr) (fault : Site → Fault) (s : State) : Host.Outcome State Fault Refusal :=
  runStep i false (fun site s1 => .error (s1.raise (fault site))) s

end Sys2Proof.Machine
end

