-- ==== Sys2Proof/Machine/Alu.lean ====
section
/-! DEFINITION. The ALU operation and AddImmediate (41_alu.md). -/

namespace Sys2Proof.Machine

open Sys2Proof

/-- The common part of the ALU operation: both operands are read, then the result operation runs (R110). -/
def runAlu (i : Instr) (f : AluFields) (alu : Word → Word → Word) (s : State) : Host.Outcome State Fault Refusal :=
  runResult i f.exit f.res f.dst (fun _ s1 => .ok (alu (s1.readReg f.srcA) (s1.readReg f.srcB), s1)) s

/-- An ALU word without an implemented sub-operation: `E_ALU_UNIMPL`, before the result operation (R110, R112, R114, R120). -/
def runAluUnimpl (i : Instr) (s : State) : Host.Outcome State Fault Refusal :=
  runFault i (fun site => .aluUnimpl site.word site.base) s

/-- ADD: `a + b` (R111). -/
def execAdd (f : AluFields) (s : State) : Host.Outcome State Fault Refusal := runAlu (.add f) f (fun a b => a + b) s

/-- ADDC: `E_ALU_UNIMPL` (R112). -/
def execAddc (f : AluFields) (s : State) : Host.Outcome State Fault Refusal := runAluUnimpl (.addc f) s

/-- SUB: `a - b` (R113). -/
def execSub (f : AluFields) (s : State) : Host.Outcome State Fault Refusal := runAlu (.sub f) f (fun a b => a - b) s

/-- SUBB: `E_ALU_UNIMPL` (R114). -/
def execSubb (f : AluFields) (s : State) : Host.Outcome State Fault Refusal := runAluUnimpl (.subb f) s

/-- XOR: `a ^ b` (R115). -/
def execXor (f : AluFields) (s : State) : Host.Outcome State Fault Refusal := runAlu (.xor f) f (fun a b => a ^^^ b) s

/-- OR: `a | b` (R116). -/
def execOr (f : AluFields) (s : State) : Host.Outcome State Fault Refusal := runAlu (.or f) f (fun a b => a ||| b) s

/-- AND: `a & b` (R117). -/
def execAnd (f : AluFields) (s : State) : Host.Outcome State Fault Refusal := runAlu (.and f) f (fun a b => a &&& b) s

/-- ANDN: `a & ~b` (R118). -/
def execAndn (f : AluFields) (s : State) : Host.Outcome State Fault Refusal :=
  runAlu (.andn f) f (fun a b => a &&& ~~~b) s

/-- NAND: `~(a & b)` (R119). -/
def execNand (f : AluFields) (s : State) : Host.Outcome State Fault Refusal :=
  runAlu (.nand f) f (fun a b => ~~~(a &&& b)) s

/-- Reserved sub-operations 4 to 7: `E_ALU_UNIMPL` (R120). -/
def execAluRsvd4to7 (op : BitVec 5) (f : AluFields) (s : State) : Host.Outcome State Fault Refusal :=
  runAluUnimpl (.aluRsvd4to7 op f) s

/-- Reserved sub-operation 13: `E_ALU_UNIMPL` (R120). -/
def execAluRsvd13 (f : AluFields) (s : State) : Host.Outcome State Fault Refusal := runAluUnimpl (.aluRsvd13 f) s

/-- Reserved sub-operations 14 and 15: `E_ALU_UNIMPL` (R120). -/
def execAluRsvd14to15 (op : BitVec 5) (f : AluFields) (s : State) : Host.Outcome State Fault Refusal :=
  runAluUnimpl (.aluRsvd14to15 op f) s

/-- Reserved sub-operations 16 to 31: `E_ALU_UNIMPL` (R120). -/
def execAluRsvd16to31 (op : BitVec 5) (f : AluFields) (s : State) : Host.Outcome State Fault Refusal :=
  runAluUnimpl (.aluRsvd16to31 op f) s

/-- ADDI: `x[src_a]` plus the sign-extended immediate, modulo 2^32 (R121). -/
def execAddi (f : ImmFields) (s : State) : Host.Outcome State Fault Refusal :=
  runResult (.addi f) f.exit f.res f.dst (fun _ s1 => .ok (s1.readReg f.srcA + immediate f.imm, s1)) s

end Sys2Proof.Machine
end

