-- ==== Sys2Proof/Machine/Bitfield.lean ====
section
/-! DEFINITION. The bitfield operations (42_bitfield.md). -/

namespace Sys2Proof.Machine

open Sys2Proof

/-- EXTINS: the field of `x[src_b]` merged into `x[src_a]` (R131). -/
def execExtins (f : InsertFields) (s : State) : Host.Outcome State Fault Refusal :=
  runResult (.extins f) f.exit f.res f.dst
    (fun _ s1 => .ok (insertField (s1.readReg f.srcA) (s1.readReg f.srcB) f.srcBit f.size f.dstBit, s1)) s

/-- EXTSHLI: `x[src_b]` shifted right by `x[src_a]`, masked, shifted left by `bf_dst_bit` (R132, R135, R136). -/
def execExtshli (f : ShiftImmFields) (s : State) : Host.Outcome State Fault Refusal :=
  runResult (.extshli f) f.exit f.res f.dst
    (fun _ s1 =>
      match s1.shiftRightReg (s1.readReg f.srcB) (s1.readReg f.srcA) with
      | (t, s2) => .ok ((t &&& bitfieldMask f.size) <<< f.dstBit.toNat, s2)) s

/-- EXTSHLR: the field of `x[src_b]` at `bf_src_bit`, shifted left by `x[src_a]` (R133, R135, R136). -/
def execExtshlr (f : ShiftRegFields) (s : State) : Host.Outcome State Fault Refusal :=
  runResult (.extshlr f) f.exit f.res f.dst
    (fun _ s1 => .ok (s1.shiftLeftReg (extractField (s1.readReg f.srcB) f.srcBit f.size) (s1.readReg f.srcA))) s

end Sys2Proof.Machine
end

