-- ==== Sys2Proof/Machine/Flags.lean ====
section
/-! DEFINITION. The block has no flags and no operation computes one (R37). The one condition it evaluates is a branch's, on a whole register value (R152). -/

namespace Sys2Proof.Machine

open Sys2Proof

/-- Whether a branch condition holds of the tested value: all 32 bits are compared with 0 (R152). -/
def conditionHolds (c : BranchCondition) (v : Word) : Bool :=
  match c with
  | .zero => v == 0
  | .notZero => v != 0

end Sys2Proof.Machine
end

