-- ==== Sys2Proof/Machine/Branch.lean ====
section
/-! DEFINITION. The branches and the Unused operation (44_branch_unused.md). -/

namespace Sys2Proof.Machine

open Sys2Proof

/-- The shape of the four branches: in a delay slot `E_BRANCH_IN_DELAY_SLOT` before any register is read (R150); else the
tested value decides between `taken`, given the target, and Continue (R151 to R153). -/
def runBranch (i : Instr) (c : BranchCondition) (f : BranchFields) (taken : State → Word → Flow × State) (s : State) :
    Host.Outcome State Fault Refusal :=
  runStep i f.exit
    (fun site s1 =>
      if s1.inDelay then .error (s1.raise (.branchInDelaySlot site.word site.base))
      else if conditionHolds c (s1.readReg (testedReg s1.params f)) then
        .ok (taken s1 (branchTarget site.base f.imm))
      else .ok (.cont, s1)) s

/-- Taken with a delay slot: the target is recorded in the pending slot (R154, R155). -/
def takeDelayed (s : State) (target : Word) : Flow × State := (.takenDelayed, { s with pending := some target })

/-- Taken and annulled: `pc <- target` at once (R156, R157). -/
def takeAnnulled (s : State) (target : Word) : Flow × State := (.takenAnnulled, { s with pc := target })

/-- BRZ (R154). -/
def execBrz (f : BranchFields) (s : State) : Host.Outcome State Fault Refusal :=
  runBranch (.brz f) .zero f takeDelayed s

/-- BRNZ (R155). -/
def execBrnz (f : BranchFields) (s : State) : Host.Outcome State Fault Refusal :=
  runBranch (.brnz f) .notZero f takeDelayed s

/-- BRZ.A (R156). -/
def execBrzA (f : BranchFields) (s : State) : Host.Outcome State Fault Refusal :=
  runBranch (.brzA f) .zero f takeAnnulled s

/-- BRNZ.A (R157). -/
def execBrnzA (f : BranchFields) (s : State) : Host.Outcome State Fault Refusal :=
  runBranch (.brnzA f) .notZero f takeAnnulled s

/-- UNUSED: `E_UNUSED_OP`, in or out of a delay slot (R159). -/
def execUnused (bits31to3 : BitVec 29) (s : State) : Host.Outcome State Fault Refusal :=
  runFault (.unused bits31to3) (fun site => .unusedOp site.word site.base) s

end Sys2Proof.Machine
end

