-- ==== Sys2Proof/Machine/Read.lean ====
section
/-! DEFINITION. The engine-register read (43_read.md). -/

namespace Sys2Proof.Machine

open Sys2Proof

/-- READ: the engine register at `x[src_a]` plus the sign-extended immediate; an address the collaborator does not admit
raises `E_READ_REFUSED` with no event (R140, R141, R142). -/
def execRead (f : ImmFields) (s : State) : Host.Outcome State Fault Refusal :=
  runResult (.read f) f.exit f.res f.dst
    (fun site s1 =>
      if readAdmits s1.params (s1.readReg f.srcA + immediate f.imm) then
        .ok (s1.engineRead (s1.readReg f.srcA + immediate f.imm))
      else .error (s1.raise (.readRefused (s1.readReg f.srcA + immediate f.imm) site.word site.base))) s

end Sys2Proof.Machine
end

