-- ==== Sys2Proof/Machine/Dispatch.lean ====
section
/-! DEFINITION. `Execute(op, base, in_delay)` with the advance before it and the sequencer after it (R90, R94): one arm per instruction. -/

namespace Sys2Proof.Machine

open Sys2Proof

def exec (i : Instr) (s : State) : Host.Outcome State Fault Refusal :=
  match i with
  | .add f => Sys2Proof.Machine.execAdd f s
  | .addc f => Sys2Proof.Machine.execAddc f s
  | .sub f => Sys2Proof.Machine.execSub f s
  | .subb f => Sys2Proof.Machine.execSubb f s
  | .xor f => Sys2Proof.Machine.execXor f s
  | .or f => Sys2Proof.Machine.execOr f s
  | .and f => Sys2Proof.Machine.execAnd f s
  | .andn f => Sys2Proof.Machine.execAndn f s
  | .nand f => Sys2Proof.Machine.execNand f s
  | .aluRsvd4to7 op f => Sys2Proof.Machine.execAluRsvd4to7 op f s
  | .aluRsvd13 f => Sys2Proof.Machine.execAluRsvd13 f s
  | .aluRsvd14to15 op f => Sys2Proof.Machine.execAluRsvd14to15 op f s
  | .aluRsvd16to31 op f => Sys2Proof.Machine.execAluRsvd16to31 op f s
  | .addi f => Sys2Proof.Machine.execAddi f s
  | .extins f => Sys2Proof.Machine.execExtins f s
  | .extshli f => Sys2Proof.Machine.execExtshli f s
  | .extshlr f => Sys2Proof.Machine.execExtshlr f s
  | .read f => Sys2Proof.Machine.execRead f s
  | .unused b => Sys2Proof.Machine.execUnused b s
  | .brz f => Sys2Proof.Machine.execBrz f s
  | .brnz f => Sys2Proof.Machine.execBrnz f s
  | .brzA f => Sys2Proof.Machine.execBrzA f s
  | .brnzA f => Sys2Proof.Machine.execBrnzA f s

end Sys2Proof.Machine
end

