-- ==== Sys2Proof/Machine/Methods.lean ====
section
/-! DEFINITION. The block's interface to its caller: the uploaded methods as a list in one canonical form, and what an AddCode and an Execute request do (70_reset_and_hazards.md, R52). -/

namespace Sys2Proof.Machine

open Sys2Proof

/-- What is held for a method number; none when nothing was uploaded for it. -/
def findMethod (ms : List MethodEntry) (m : Word) : Option MethodEntry :=
  match ms with
  | [] => none
  | e :: rest => if e.number = m then some e else findMethod rest m

/-- The store with this entry in its place by rising number, replacing the entry of the same number. -/
def putMethod (ms : List MethodEntry) (e : MethodEntry) : List MethodEntry :=
  match ms with
  | [] => [e]
  | d :: rest =>
    if e.number.toNat < d.number.toNat then e :: d :: rest
    else if e.number = d.number then e :: rest
    else d :: putMethod rest e

/-- One entry's own form: a buffer exists only once a word was appended, and the program an invocation fixed is a non-empty
beginning of it (R52, R234, R235). -/
def MethodEntry.wf (e : MethodEntry) : Bool :=
  !e.uploaded.isEmpty &&
    match e.compiled with
    | none => true
    | some p => !p.isEmpty && p.isPrefixOf e.uploaded

/-- The canonical form of the store: numbers strictly rising, every entry well formed (DESIGN CHOICE, log entry 21). -/
def methodsWf (ms : List MethodEntry) : Bool :=
  match ms with
  | [] => true
  | e :: rest => e.wf && rest.all (fun d => decide (e.number.toNat < d.number.toNat)) && methodsWf rest

/-- The program an Execute of this method runs: the one its first invocation fixed, else what is uploaded now (R52, R234). -/
def MethodEntry.program (e : MethodEntry) : List Word := e.compiled.getD e.uploaded

/-- `AddCode(method, word)`: appends to the method's upload buffer; never fails (R235). -/
def State.addCode (s : State) (m w : Word) : State :=
  match findMethod s.methods m with
  | none => { s with methods := putMethod s.methods { number := m, uploaded := [w], compiled := none } }
  | some e => { s with methods := putMethod s.methods { e with uploaded := e.uploaded ++ [w] } }

/-- `Enter(program, parameters)` for a non-empty list: every element of the invocation state takes its entry value (R24,
R230). The store, the requests, the open parameters and the draw counter are no invocation's. -/
def State.enter (s : State) (program : List Word) (p0 : Word) (rest : List Word) : State :=
  { s with
    regs := { x1 := p0, x2 := 0, x3 := 0, x4 := 0, x5 := 0, x6 := 0, x7 := 0 }
    pc := 0
    pending := none
    seqMode := .normal
    methodAddress := 0
    cursor := 1
    parameters := p0 :: rest
    program := program
    status := .running
    trace := [] }

/-- An Execute that fails before its first step: the fault with an empty trace (R231, R234). -/
def State.failEntry (s : State) (f : Fault) : State := ({ s with trace := [] } : State).raise f

/-- `Execute(method, parameters)`: `E_NO_CODE` first; the program is fixed; then `E_NO_PARAMS`; then the entry (R204, R230,
R231, R234, R52). DEDUCED: the program is fixed before the parameter check (log entry 9). -/
def State.execute (s : State) (m : Word) (parameters : List Word) : State :=
  match findMethod s.methods m with
  | none => s.failEntry (.noCode m)
  | some e =>
    match parameters with
    | [] => ({ s with methods := putMethod s.methods { e with compiled := some e.program } } : State).failEntry .noParams
    | p0 :: rest =>
      ({ s with methods := putMethod s.methods { e with compiled := some e.program } } : State).enter e.program p0 rest

/-- One request of the caller (R233). -/
def State.serve (s : State) (r : Request) : State :=
  match r with
  | .addCode m w => s.addCode m w
  | .execute m parameters => s.execute m parameters

/-- Between invocations: the oldest request is served; with none, nothing happens (R36, R213, R233). -/
def State.idleStep (s : State) : State :=
  match s.requests with
  | [] => s
  | r :: rest => ({ s with requests := rest } : State).serve r

end Sys2Proof.Machine
end

