-- ==== Sys2Proof/Machine/Placing.lean ====
section
/-! DEFINITION. Placing a code word where the next step fetches: what an upload and an invocation from outside the machine do for one word (log entry 8). -/

namespace Sys2Proof.Machine

open Sys2Proof

/-- The program with `w` as the word of index `k`; where the program ends before `k`, zero words stand between. -/
def placeWord (program : List Word) (k : Nat) (w : Word) : List Word :=
  program.take k ++ List.replicate (k - program.length) 0 ++ w :: program.drop (k + 1)

/-- `s` with the word at its `pc`, which is rounded down to a multiple of 4 (R26), in a running invocation. -/
def State.placeAtPc (s : State) (w : Word) : State :=
  { s with
    pc := BitVec.ofNat 32 (s.pc.toNat / 4 * 4)
    program := placeWord s.program (s.pc.toNat / 4) w
    status := .running }

end Sys2Proof.Machine
end

