-- ==== Sys2Proof/Machine/Step.lean ====
section
/-! DEFINITION. One step of the block (R90, R100), and placing one instruction where the step fetches. -/

namespace Sys2Proof.Machine

open Sys2Proof

/-- A running invocation fetches, decodes and executes one word (R90), or raises `E_FETCH_RANGE` (R42). An invocation that has
ended takes no step (R36): the caller's next request is served (R233), and with none nothing happens. -/
def step (s : State) : Host.Outcome State Fault Refusal :=
  match s.status with
  | .running =>
    match fetchWord s.program s.pc with
    | none => .next (s.raise (.fetchRange s.pc))
    | some w => exec (decodeWord w) s
  | .halted => .next s.idleStep
  | .faulted _ => .next s.idleStep

/-- `s` with the instruction of these bits stored where `step` fetches next (log entry 8). -/
def State.withFetchWord (s : State) (nbits w : Nat) : State := s.placeAtPc (BitVec.ofNat 32 (w % 2 ^ nbits))

end Sys2Proof.Machine
end

