-- ==== Sys2Proof/Machine/Assembly.lean ====
section
/-! DEFINITION. The spec's own assembler syntax (30_encoding.md R87): the pseudo-instructions as the instructions they expand to, and the line an instruction is written as. -/

namespace Sys2Proof.Machine

open Sys2Proof

/-! ## Pseudo-instructions -/

/-- An ADD with every ignored bit 0. -/
def plainAdd (res : ResultOp) (exit : Bool) (d a b : Reg) : Instr :=
  .add { res := res, exit := exit, dst := d, srcA := a, srcB := b, bit3 := false, bits31to22 := 0 }

/-- An ADDI with its ignored bit 0. -/
def plainAddi (res : ResultOp) (d a : Reg) (imm : BitVec 18) : Instr :=
  .addi { res := res, exit := false, dst := d, srcA := a, imm := imm, bit3 := false }

/-- `NOP`: `ADD.MOV r0, r0, r0`. -/
def asmNop : Instr := plainAdd .mov false .r0 .r0 .r0

/-- `EXIT`: `ADD.MOV.X r0, r0, r0`. -/
def asmExit : Instr := plainAdd .mov true .r0 .r0 .r0

/-- `LI rD, #imm`: `ADDI.MOV rD, r0, #imm`. -/
def asmLi (d : Reg) (imm : BitVec 18) : Instr := plainAddi .mov d .r0 imm

/-- `MOV rD, rA`: `ADD.MOV rD, rA, r0`. -/
def asmMov (d a : Reg) : Instr := plainAdd .mov false d a .r0

/-- `FETCH rD`: `ADD.FETCH rD, r0, r0`. -/
def asmFetch (d : Reg) : Instr := plainAdd .fetch false d .r0 .r0

/-- `SEND rA`: `ADD.MOVSEND r0, rA, r0`. -/
def asmSend (a : Reg) : Instr := plainAdd .movsend false .r0 a .r0

/-- `SETM #imm`: `ADDI.MOVSM r0, r0, #imm`. -/
def asmSetm (imm : BitVec 18) : Instr := plainAddi .movsm .r0 .r0 imm

/-- `B #imm`: `BRZ.A r0, #imm`. -/
def asmB (imm : BitVec 18) : Instr :=
  .brzA { exit := false, srcA := .r0, imm := imm, bit3 := false, bit6 := false, bits10to8 := 0 }

/-! ## The written line -/

/-- `r0` to `r7`. -/
def regName (r : Reg) : String :=
  match r with
  | .r0 => "r0"
  | .r1 => "r1"
  | .r2 => "r2"
  | .r3 => "r3"
  | .r4 => "r4"
  | .r5 => "r5"
  | .r6 => "r6"
  | .r7 => "r7"

/-- The suffix of a result operation (R80). -/
def resSuffix (r : ResultOp) : String :=
  match r with
  | .fetch => ".FETCH"
  | .mov => ".MOV"
  | .movsm => ".MOVSM"
  | .fetchsend => ".FETCHSEND"
  | .movsend => ".MOVSEND"
  | .fetchsm => ".FETCHSM"
  | .movsmfetchsend => ".MOVSMFETCHSEND"
  | .movsmsend => ".MOVSMSEND"

/-- `.X` sets `is_exit`. -/
def exitSuffix (exit : Bool) : String := if exit then ".X" else ""

/-- A signed immediate, in words for a branch (R71, R87). DESIGN CHOICE: the radix is decimal, negative ones with a minus sign;
the spec writes both `#5` and `#0x42` (R89) and fixes neither (log entry 22). -/
def immText (imm : BitVec 18) : String := ", #" ++ toString imm.toInt

/-- An unsigned 5-bit field (R72, R74, R75, R87). DESIGN CHOICE: the radix is decimal (log entry 22). -/
def fieldText (b : BitVec 5) : String := ", #" ++ toString b.toNat

/-- The line of an ALU instruction. -/
def aluLine (name : String) (f : AluFields) : String :=
  name ++ resSuffix f.res ++ exitSuffix f.exit ++ " " ++ regName f.dst ++ ", " ++ regName f.srcA ++ ", " ++ regName f.srcB

/-- The line of ADDI or READ. -/
def immLine (name : String) (f : ImmFields) : String :=
  name ++ resSuffix f.res ++ exitSuffix f.exit ++ " " ++ regName f.dst ++ ", " ++ regName f.srcA ++ immText f.imm

/-- The line of a branch: the printed register is `src_a`. -/
def branchLine (name : String) (f : BranchFields) : String :=
  name ++ exitSuffix f.exit ++ " " ++ regName f.srcA ++ immText f.imm

/-- The line an instruction is written as (R87); none for a reserved ALU word, which the syntax does not write. DESIGN CHOICE:
numbers are decimal, and an instruction that has a pseudo-instruction too is written as its expansion (log entry 22). -/
def assemblyLine (i : Instr) : Option String :=
  match i with
  | .add f => some (aluLine "ADD" f)
  | .addc f => some (aluLine "ADDC" f)
  | .sub f => some (aluLine "SUB" f)
  | .subb f => some (aluLine "SUBB" f)
  | .xor f => some (aluLine "XOR" f)
  | .or f => some (aluLine "OR" f)
  | .and f => some (aluLine "AND" f)
  | .andn f => some (aluLine "ANDN" f)
  | .nand f => some (aluLine "NAND" f)
  | .aluRsvd4to7 _ _ => none
  | .aluRsvd13 _ => none
  | .aluRsvd14to15 _ _ => none
  | .aluRsvd16to31 _ _ => none
  | .addi f => some (immLine "ADDI" f)
  | .extins f =>
    some ("EXTINS" ++ resSuffix f.res ++ exitSuffix f.exit ++ " " ++ regName f.dst ++ ", " ++ regName f.srcA ++ ", " ++
      regName f.srcB ++ fieldText f.srcBit ++ fieldText f.size ++ fieldText f.dstBit)
  | .extshli f =>
    some ("EXTSHLI" ++ resSuffix f.res ++ exitSuffix f.exit ++ " " ++ regName f.dst ++ ", " ++ regName f.srcA ++ ", " ++
      regName f.srcB ++ fieldText f.size ++ fieldText f.dstBit)
  | .extshlr f =>
    some ("EXTSHLR" ++ resSuffix f.res ++ exitSuffix f.exit ++ " " ++ regName f.dst ++ ", " ++ regName f.srcA ++ ", " ++
      regName f.srcB ++ fieldText f.srcBit ++ fieldText f.size)
  | .read f => some (immLine "READ" f)
  | .unused _ => some "UNUSED"
  | .brz f => some (branchLine "BRZ" f)
  | .brnz f => some (branchLine "BRNZ" f)
  | .brzA f => some (branchLine "BRZ.A" f)
  | .brnzA f => some (branchLine "BRNZ.A" f)

end Sys2Proof.Machine
end

