-- ==== Sys2Proof/Machine/Observe.lean ====
section
/-! DEFINITION. What the caller gets to see: the observation of an invocation (R215), and the code and category of each fault (R201, R202). -/

namespace Sys2Proof.Machine

open Sys2Proof

/-- The fault categories, which are reported apart (R201, R202). -/
inductive FaultCategory where
  | unimplemented | precondition | collaborator
  deriving DecidableEq, Repr

/-- The code of a fault (R201). -/
def faultCode (f : Fault) : Nat :=
  match f with
  | .unusedOp _ _ => 0x01
  | .aluUnimpl _ _ => 0x02
  | .resultUnimpl _ _ => 0x03
  | .branchInDelaySlot _ _ => 0x10
  | .paramOverrun _ _ _ => 0x11
  | .paramUnconsumed _ _ => 0x12
  | .noParams => 0x13
  | .noCode _ => 0x14
  | .regIndex _ => 0x15
  | .fetchRange _ => 0x16
  | .readRefused _ _ _ => 0x20

/-- The category of a fault (R201, R202). -/
def faultCategory (f : Fault) : FaultCategory :=
  match f with
  | .unusedOp _ _ => .unimplemented
  | .aluUnimpl _ _ => .unimplemented
  | .resultUnimpl _ _ => .unimplemented
  | .branchInDelaySlot _ _ => .precondition
  | .paramOverrun _ _ _ => .precondition
  | .paramUnconsumed _ _ => .precondition
  | .noParams => .precondition
  | .noCode _ => .precondition
  | .regIndex _ => .precondition
  | .fetchRange _ => .precondition
  | .readRefused _ _ _ => .collaborator

/-- The observation of an invocation (R215). -/
structure Observation where
  /-- The engine events, in the order performed. -/
  trace : List Event
  /-- How it ended; `running` stands for no outcome so far. -/
  outcome : Status
  /-- `x[1]` to `x[7]`, for a halted invocation only. -/
  registers : Option RegFile
  deriving DecidableEq, Repr

/-- What can be seen of an invocation in a state (R205, R215): registers only once it has halted. -/
def State.observe (s : State) : Observation :=
  { trace := s.trace
    outcome := s.status
    registers :=
      match s.status with
      | .halted => some s.regs
      | .running => none
      | .faulted _ => none }

end Sys2Proof.Machine
end

