-- ==== Sys2Proof/Safety.lean ====
section
/-! DEFINITION. The invariant of the machine's states, and when an invocation completed normally. -/

namespace Sys2Proof.Machine

open Sys2Proof

/-- An engine write names one of the addresses 0 to 4095 (R45); a read may name any (R45). -/
def eventInRange (e : Event) : Bool :=
  match e with
  | .write addr _ => decide (addr.toNat < 4096)
  | .read _ _ => true

/-- What holds of every state between steps:
the sequencer invariants (R103 a and, with it, b);
`pc` and the pending target are multiples of 4 (R26, R103 c);
the parameter list is not empty and the cursor has passed its first element and not its end (R33, R34, R171);
a normal halt has consumed every parameter (R214);
every write of the trace names an address below 4096 (R45);
the uploaded methods have their canonical form: no rule of the spec but the model's own form of them (DESIGN CHOICE, log
entry 21). -/
abbrev State.Inv (s : State) : Prop :=
  (s.pending ≠ none → s.seqMode = .delay false) ∧
  s.pc.toNat % 4 = 0 ∧
  (s.pending.getD 0).toNat % 4 = 0 ∧
  1 ≤ s.cursor ∧ s.cursor ≤ s.parameters.length ∧
  (s.status = .halted → s.cursor = s.parameters.length) ∧
  s.trace.all eventInRange = true ∧
  methodsWf s.methods = true

/-- A normal completion: the invocation halted; a faulted invocation is never one (R205, R214). -/
abbrev State.completed (s : State) : Prop := s.status = .halted

/-- No invocation runs: the caller may ask for the next (R36, R213). -/
abbrev State.idle (s : State) : Prop := s.status ≠ .running

end Sys2Proof.Machine
end

