-- ==== Sys2Proof/WellFormed.lean ====
section
/-! DEFINITION. Well-formed instructions: a reserved ALU word's sub-operation lies in its opcode-table row's range (R83, R120). Every other field has exactly the width its type gives it. -/

namespace Sys2Proof

/-- An instruction that some code word stands for: the reserved ALU constructors hold a value of their own row. -/
def Instr.wf (i : Instr) : Bool :=
  match i with
  | .aluRsvd4to7 op _ => decide (4 ≤ op.toNat ∧ op.toNat ≤ 7)
  | .aluRsvd14to15 op _ => decide (14 ≤ op.toNat ∧ op.toNat ≤ 15)
  | .aluRsvd16to31 op _ => decide (16 ≤ op.toNat)
  | .aluRsvd13 _ | .add _ | .addc _ | .sub _ | .subb _ | .xor _ | .or _ | .and _ | .andn _ | .nand _ => true
  | .addi _ | .extins _ | .extshli _ | .extshlr _ | .read _ | .unused _ => true
  | .brz _ | .brnz _ | .brzA _ | .brnzA _ => true

end Sys2Proof
end

