-- ==== Sys2Proof/Certificates/Slice0/Obligations.lean ====
section
/-! DEFINITION. The statements for the provers. The helpers of `Sys2Proof.Spec` write the rules' right-hand sides out in
closed form (fields of a word by division, next states field by field), apart from the operations the meanings are written
from. -/

namespace Sys2Proof.Spec

open Sys2Proof Sys2Proof.Machine

/-! ## Words by division -/

/-- `word[hi:lo]` as a number, `width` bits from bit `lo` (R10). -/
def bits (w : Word) (lo width : Nat) : Nat := w.toNat / 2 ^ lo % 2 ^ width

/-- The register of an index 0 to 7 (R20), by the index written out. -/
def regOf (n : Nat) : Reg :=
  match n with
  | 0 => .r0
  | 1 => .r1
  | 2 => .r2
  | 3 => .r3
  | 4 => .r4
  | 5 => .r5
  | 6 => .r6
  | _ => .r7

/-- The result operation of a value 0 to 7 (R80), by the value written out. -/
def resOf (n : Nat) : ResultOp :=
  match n with
  | 0 => .fetch
  | 1 => .mov
  | 2 => .movsm
  | 3 => .fetchsend
  | 4 => .movsend
  | 5 => .fetchsm
  | 6 => .movsmfetchsend
  | _ => .movsmsend

/-- The `mask` and `match` of an instruction's row of spec/opcode_table.json. -/
def tableRow (i : Instr) : Word × Word :=
  match i with
  | .add _ => (0x003E0007, 0x00000000)
  | .addc _ => (0x003E0007, 0x00020000)
  | .sub _ => (0x003E0007, 0x00040000)
  | .subb _ => (0x003E0007, 0x00060000)
  | .xor _ => (0x003E0007, 0x00100000)
  | .or _ => (0x003E0007, 0x00120000)
  | .and _ => (0x003E0007, 0x00140000)
  | .andn _ => (0x003E0007, 0x00160000)
  | .nand _ => (0x003E0007, 0x00180000)
  | .aluRsvd4to7 _ _ => (0x00380007, 0x00080000)
  | .aluRsvd13 _ => (0x003E0007, 0x001A0000)
  | .aluRsvd14to15 _ _ => (0x003C0007, 0x001C0000)
  | .aluRsvd16to31 _ _ => (0x00200007, 0x00200000)
  | .addi _ => (0x00000007, 0x00000001)
  | .extins _ => (0x00000007, 0x00000002)
  | .extshli _ => (0x00000007, 0x00000003)
  | .extshlr _ => (0x00000007, 0x00000004)
  | .read _ => (0x00000007, 0x00000005)
  | .unused _ => (0x00000007, 0x00000006)
  | .brz _ => (0x00000037, 0x00000007)
  | .brnz _ => (0x00000037, 0x00000017)
  | .brzA _ => (0x00000037, 0x00000027)
  | .brnzA _ => (0x00000037, 0x00000037)

/-- The bits of a word that its operation ignores: the last column of R82's table, by the operation's value. -/
def ignoredBits (w : Word) : Word :=
  match w.toNat % 8 with
  | 0 => 0xFFC00008
  | 1 => 0x00000008
  | 2 => 0x00000008
  | 3 => 0x003E0008
  | 4 => 0xF8000008
  | 5 => 0x00000008
  | 6 => 0xFFFFFFF8
  | _ => 0x00000748

/-- A state with the offending word of its fault forgotten (the report of R201 is the word itself, ignored bits and all). -/
def forgetWord (s : State) : State :=
  { s with
    status :=
      match s.status with
      | .faulted (.unusedOp _ b) => .faulted (.unusedOp 0 b)
      | .faulted (.aluUnimpl _ b) => .faulted (.aluUnimpl 0 b)
      | .faulted (.branchInDelaySlot _ b) => .faulted (.branchInDelaySlot 0 b)
      | .faulted (.paramOverrun c _ b) => .faulted (.paramOverrun c 0 b)
      | .faulted (.readRefused a _ b) => .faulted (.readRefused a 0 b)
      | other => other }

/-! ## Next states, field by field -/

/-- Where `pc` stands when the operation is dispatched: the pending target, else four on, modulo 2^32 (R92, R93). -/
def dispatchPc (s : State) : Word :=
  match s.pending with
  | some t => t
  | none => BitVec.ofNat 32 (s.pc.toNat + 4)

/-- The state a step leaves when its operation raises `f` before any effect of its own (R205, R206). -/
def faulted (s : State) (f : Fault) : State :=
  { s with pc := dispatchPc s, pending := none, status := .faulted f }

/-- The result operations that fetch a parameter (R173, R176, R178, R179). -/
def fetches (ro : ResultOp) : Bool :=
  match ro with
  | .fetch => true
  | .mov => false
  | .movsm => false
  | .fetchsend => true
  | .movsend => false
  | .fetchsm => true
  | .movsmfetchsend => true
  | .movsmsend => false

/-- The result operations that set the method address (R175, R178, R179, R180). -/
def setsMethod (ro : ResultOp) : Bool :=
  match ro with
  | .fetch => false
  | .mov => false
  | .movsm => true
  | .fetchsend => false
  | .movsend => false
  | .fetchsm => true
  | .movsmfetchsend => true
  | .movsmsend => true

/-- The value a result operation writes to `dst`: the parameter `p` or the result `v` (R173 to R180). -/
def written (ro : ResultOp) (v p : Word) : Word :=
  match ro with
  | .fetch => p
  | .mov => v
  | .movsm => v
  | .fetchsend => p
  | .movsend => v
  | .fetchsm => p
  | .movsmfetchsend => v
  | .movsmsend => v

/-- The value a result operation Sends, if it Sends (R176, R177, R179, R180). -/
def sent (ro : ResultOp) (v p : Word) : Option Word :=
  match ro with
  | .fetch => none
  | .mov => none
  | .movsm => none
  | .fetchsend => some v
  | .movsend => some v
  | .fetchsm => none
  | .movsmfetchsend => some p
  | .movsmsend => some (BitVec.ofNat 32 (v.toNat / 4096 % 64))

/-- The registers with `v` in `d`, and `x[0]` nowhere to write to (R22). -/
def regsWith (x : RegFile) (d : Reg) (v : Word) : RegFile :=
  { x1 := if d = .r1 then v else x.x1
    x2 := if d = .r2 then v else x.x2
    x3 := if d = .r3 then v else x.x3
    x4 := if d = .r4 then v else x.x4
    x5 := if d = .r5 then v else x.x5
    x6 := if d = .r6 then v else x.x6
    x7 := if d = .r7 then v else x.x7 }

/-- The method address after a Send, by number: `(address + increment) mod 4096` below bit 12, the rest as it was (R182). -/
def sentFrom (ma : Word) : Word :=
  BitVec.ofNat 32 (ma.toNat / 4096 * 4096 + (ma.toNat % 4096 + ma.toNat / 4096 % 64) % 4096)

/-- What an operation with a result has computed before its result operation runs: the result, the engine events it
performed and how many free values it drew. -/
structure Computed where
  exit : Bool
  res : ResultOp
  dst : Reg
  value : Word
  events : List Event
  drawn : Nat

/-- The parameter at the cursor (R171); read only where one is left. -/
def parameterAt (s : State) : Word := s.parameters.getD s.cursor 0

/-- Whether the parameter that the result operation asks for is there (R171). -/
def parameterLeft (s : State) (ro : ResultOp) : Prop := fetches ro = true → s.cursor < s.parameters.length

/-- The cursor after the result operation (R171). -/
def cursorAfter (s : State) (ro : ResultOp) : Nat := if fetches ro then s.cursor + 1 else s.cursor

/-- The method address the Send of a result operation finds (R172, R175, R178 to R180). -/
def methodAddressSet (s : State) (c : Computed) : Word := if setsMethod c.res then c.value else s.methodAddress

/-- The whole next state of an instruction that computed `c` and completes its result operation: registers, method
address, cursor and trace by R173 to R182, `pc` and the pending slot by R92 and R93, mode and status by R95 and R214. -/
def completed (s : State) (c : Computed) : State :=
  { s with
    regs := regsWith s.regs c.dst (written c.res c.value (parameterAt s))
    pc := dispatchPc s
    pending := none
    seqMode :=
      match c.exit, s.seqMode with
      | true, _ => .delay true
      | false, .delay true => .delay true
      | false, _ => .normal
    methodAddress :=
      match sent c.res c.value (parameterAt s) with
      | none => methodAddressSet s c
      | some _ => sentFrom (methodAddressSet s c)
    cursor := cursorAfter s c.res
    status :=
      match c.exit, s.seqMode with
      | true, _ => s.status
      | false, .delay true =>
        if cursorAfter s c.res = s.parameters.length then .halted
        else .faulted (.paramUnconsumed (cursorAfter s c.res) s.parameters.length)
      | false, _ => s.status
    trace :=
      s.trace ++ c.events ++
        match sent c.res c.value (parameterAt s) with
        | none => []
        | some v => [.write (BitVec.ofNat 32 ((methodAddressSet s c).toNat % 4096)) v]
    draws := s.draws + c.drawn }

/-- The next state of an instruction at `base` with word `w` that computed `c` and whose result operation finds no parameter:
of its effects only those before the fetch are done (R171, R173, R176, R178, R179, R184, R206). -/
def overrun (s : State) (c : Computed) (w : Word) : State :=
  { s with
    regs := if c.res = .movsmfetchsend then regsWith s.regs c.dst c.value else s.regs
    pc := dispatchPc s
    pending := none
    methodAddress := if c.res = .movsmfetchsend then c.value else s.methodAddress
    status := .faulted (.paramOverrun s.cursor w s.pc)
    trace := s.trace ++ c.events
    draws := s.draws + c.drawn }

/-! ## Results by operation -/

/-- An ALU word's result `v`: nothing else happens before the result operation (R110). -/
def ofAlu (f : AluFields) (v : Word) : Computed :=
  { exit := f.exit, res := f.res, dst := f.dst, value := v, events := [], drawn := 0 }

/-- ADD by number (R111). -/
def addValue (a b : Word) : Word := BitVec.ofNat 32 ((a.toNat + b.toNat) % 2 ^ 32)

/-- SUB by number (R113). -/
def subValue (a b : Word) : Word := BitVec.ofInt 32 ((a.toNat : Int) - (b.toNat : Int))

/-- The mask of a field size, by number (R76). -/
def maskOf (size : BitVec 5) : Word := BitVec.ofNat 32 (2 ^ size.toNat - 1)

/-- `x >> n` by number, for `n <= 31` (R11). -/
def shiftedRight (x : Word) (n : Nat) : Word := BitVec.ofNat 32 (x.toNat / 2 ^ n)

/-- `x << n` by number, for `n <= 31` (R11). -/
def shiftedLeft (x : Word) (n : Nat) : Word := BitVec.ofNat 32 (x.toNat * 2 ^ n % 2 ^ 32)

/-- ADDI's result (R121). -/
def ofAddi (f : ImmFields) (s : State) : Computed :=
  { exit := f.exit, res := f.res, dst := f.dst, events := [], drawn := 0
    value := BitVec.ofInt 32 (((s.readReg f.srcA).toNat : Int) + f.imm.toInt) }

/-- EXTINS's result (R131, R135). -/
def ofExtins (f : InsertFields) (s : State) : Computed :=
  { exit := f.exit, res := f.res, dst := f.dst, events := [], drawn := 0
    value :=
      (s.readReg f.srcA &&& ~~~(shiftedLeft (maskOf f.size) f.dstBit.toNat)) |||
        shiftedLeft (shiftedRight (s.readReg f.srcB) f.srcBit.toNat &&& maskOf f.size) f.dstBit.toNat }

/-- EXTSHLI's result: the right shift by a register amount of 32 or more is the draw (R132, R136). -/
def ofExtshli (f : ShiftImmFields) (s : State) : Computed :=
  if (s.readReg f.srcA).toNat ≤ 31 then
    { exit := f.exit, res := f.res, dst := f.dst, events := [], drawn := 0
      value :=
        shiftedLeft (shiftedRight (s.readReg f.srcB) (s.readReg f.srcA).toNat &&& maskOf f.size) f.dstBit.toNat }
  else
    { exit := f.exit, res := f.res, dst := f.dst, events := [], drawn := 1
      value := shiftedLeft (Config.largeShift s.draws &&& maskOf f.size) f.dstBit.toNat }

/-- EXTSHLR's result: the left shift by a register amount of 32 or more is the draw (R133, R136). -/
def ofExtshlr (f : ShiftRegFields) (s : State) : Computed :=
  if (s.readReg f.srcA).toNat ≤ 31 then
    { exit := f.exit, res := f.res, dst := f.dst, events := [], drawn := 0
      value :=
        shiftedLeft (shiftedRight (s.readReg f.srcB) f.srcBit.toNat &&& maskOf f.size) (s.readReg f.srcA).toNat }
  else
    { exit := f.exit, res := f.res, dst := f.dst, events := [], drawn := 1, value := Config.largeShift s.draws }

/-- READ's address: the 32-bit sum, modulo 2^32 (R141). -/
def readAddress (f : ImmFields) (s : State) : Word :=
  BitVec.ofInt 32 (((s.readReg f.srcA).toNat : Int) + f.imm.toInt)

/-- READ's result: the oracle's value, after its event (R140, R48). -/
def ofRead (f : ImmFields) (s : State) : Computed :=
  { exit := f.exit, res := f.res, dst := f.dst, drawn := 1
    value := Config.readOracle s.draws (readAddress f s) s.trace
    events := [.read (readAddress f s) (Config.readOracle s.draws (readAddress f s) s.trace)] }

/-- What each instruction that has a result computes; none for an instruction without one, and for a Read that is refused. -/
def computes (i : Instr) (s : State) : Option Computed :=
  match i with
  | .add f => some (ofAlu f (addValue (s.readReg f.srcA) (s.readReg f.srcB)))
  | .sub f => some (ofAlu f (subValue (s.readReg f.srcA) (s.readReg f.srcB)))
  | .xor f => some (ofAlu f (s.readReg f.srcA ^^^ s.readReg f.srcB))
  | .or f => some (ofAlu f (s.readReg f.srcA ||| s.readReg f.srcB))
  | .and f => some (ofAlu f (s.readReg f.srcA &&& s.readReg f.srcB))
  | .andn f => some (ofAlu f (s.readReg f.srcA &&& ~~~s.readReg f.srcB))
  | .nand f => some (ofAlu f (~~~(s.readReg f.srcA &&& s.readReg f.srcB)))
  | .addi f => some (ofAddi f s)
  | .extins f => some (ofExtins f s)
  | .extshli f => some (ofExtshli f s)
  | .extshlr f => some (ofExtshlr f s)
  | .read f => if readAddress f s ∈ s.params.readRefused then none else some (ofRead f s)
  | .addc _ | .subb _ | .aluRsvd4to7 _ _ | .aluRsvd13 _ | .aluRsvd14to15 _ _ | .aluRsvd16to31 _ _ => none
  | .unused _ | .brz _ | .brnz _ | .brzA _ | .brnzA _ => none

/-- The instruction completes with `v` in `d`, which for register 0 nothing holds, and with no side effect of its result
operation (R174). -/
def moves (i : Instr) (s : State) (d : Reg) (v : Word) : Prop :=
  ∃ t, exec i s = .next t ∧ t.readReg d = (if d = .r0 then 0 else v) ∧ (∀ r, r ≠ d → t.readReg r = s.readReg r) ∧
    t.methodAddress = s.methodAddress ∧ t.cursor = s.cursor ∧ t.trace = s.trace

/-! ## Branches -/

/-- The value a branch tests: of the register its immediate's low 3 bits name, or of `src_a`, by `BRANCH_TEST_FIELD` (R151).
-/
def tested (f : BranchFields) (s : State) : Word :=
  match s.params.branchTest with
  | .srcB => s.readReg (regOf (f.imm.toNat % 8))
  | .srcA => s.readReg f.srcA

/-- A branch's target: `base + immediate * 4` modulo 2^32 (R77, R153). -/
def target (f : BranchFields) (s : State) : Word := BitVec.ofInt 32 ((s.pc.toNat : Int) + f.imm.toInt * 4)

/-- A branch taken with a delay slot (R154, R155, R95). -/
def takenDelayed (f : BranchFields) (s : State) : State :=
  { s with pc := dispatchPc s, pending := some (target f s), seqMode := .delay false }

/-- A branch taken and annulled (R156, R157, R95). -/
def takenAnnulled (f : BranchFields) (s : State) : State :=
  { s with pc := target f s, pending := none, seqMode := .normal }

/-- A branch not taken, outside a delay slot: its exit flag acts (R95, R99). -/
def fallsThrough (f : BranchFields) (s : State) : State :=
  { s with pc := dispatchPc s, pending := none, seqMode := if f.exit then .delay true else .normal }

/-! ## What an instruction may write -/

/-- The one general register an instruction may write (R82). -/
def destination (i : Instr) : Option Reg :=
  match i with
  | .add f | .sub f | .xor f | .or f | .and f | .andn f | .nand f => some f.dst
  | .addi f | .read f => some f.dst
  | .extins f => some f.dst
  | .extshli f => some f.dst
  | .extshlr f => some f.dst
  | .addc _ | .subb _ | .aluRsvd4to7 _ _ | .aluRsvd13 _ | .aluRsvd14to15 _ _ | .aluRsvd16to31 _ _ => none
  | .unused _ | .brz _ | .brnz _ | .brzA _ | .brnzA _ => none

/-- The result operation of an instruction that has one (R82). -/
def resultOp (i : Instr) : Option ResultOp :=
  match i with
  | .add f | .sub f | .xor f | .or f | .and f | .andn f | .nand f => some f.res
  | .addi f | .read f => some f.res
  | .extins f => some f.res
  | .extshli f => some f.res
  | .extshlr f => some f.res
  | .addc _ | .subb _ | .aluRsvd4to7 _ _ | .aluRsvd13 _ | .aluRsvd14to15 _ _ | .aluRsvd16to31 _ _ => none
  | .unused _ | .brz _ | .brnz _ | .brzA _ | .brnzA _ => none

/-- The exit flag an instruction carries (R67; UNUSED's has no effect, R159). -/
def exitFlag (i : Instr) : Bool :=
  match i with
  | .add f | .addc f | .sub f | .subb f | .xor f | .or f | .and f | .andn f | .nand f => f.exit
  | .aluRsvd4to7 _ f | .aluRsvd13 f | .aluRsvd14to15 _ f | .aluRsvd16to31 _ f => f.exit
  | .addi f | .read f => f.exit
  | .extins f => f.exit
  | .extshli f => f.exit
  | .extshlr f => f.exit
  | .unused _ => false
  | .brz f | .brnz f | .brzA f | .brnzA f => f.exit

/-- The result operations that write the method address: they set it or Send (R172, R182). -/
def writesMethodAddress (ro : ResultOp) : Bool :=
  match ro with
  | .fetch => false
  | .mov => false
  | .movsm => true
  | .fetchsend => true
  | .movsend => true
  | .fetchsm => true
  | .movsmfetchsend => true
  | .movsmsend => true

/-- The result operations that Send (R176, R177, R179, R180). -/
def sends (ro : ResultOp) : Bool :=
  match ro with
  | .fetch => false
  | .mov => false
  | .movsm => false
  | .fetchsend => true
  | .movsend => true
  | .fetchsm => false
  | .movsmfetchsend => true
  | .movsmsend => true

/-- A state with bits 31:18 of the method address cleared (R32). -/
def forgetUpperBits (s : State) : State := { s with methodAddress := s.methodAddress &&& 0x0003FFFF#32 }

/-- The program a method's first invocation fixed, if there was one (R52). -/
def fixedProgram (s : State) (m : Word) : Option (List Word) := (findMethod s.methods m).bind (·.compiled)

end Sys2Proof.Spec

open Sys2Proof Sys2Proof.Machine Sys2Proof.Spec

/-! ## Encoding -/

/-- Words written out by R89 and 95_test_vectors.md decode to the instructions they stand for. The bit positions and values
are the spec's own decisions D1 and D2 (log entry 12). -/
def Obligations.WorkedWordsDecode : Prop :=
  decodeWord 0x00014191 = .addi { res := .mov, exit := true, dst := .r1, srcA := .r0, imm := 5, bit3 := false } ∧
  decodeWord 0x00048B10 =
    .sub { res := .mov, exit := false, dst := .r3, srcA := .r1, srcB := .r2, bit3 := false, bits31to22 := 0 } ∧
  decodeWord 0x02085312 =
    .extins { res := .mov, exit := false, dst := .r3, srcA := .r2, srcB := .r1, srcBit := 4, size := 8, dstBit := 0,
              bit3 := false } ∧
  decodeWord 0xFFFF6837 =
    .brnzA { exit := false, srcA := .r5, imm := -3, bit3 := false, bit6 := false, bits10to8 := 0 } ∧
  decodeWord 0x00108715 = .read { res := .mov, exit := false, dst := .r7, srcA := .r0, imm := 0x42, bit3 := false } ∧
  decodeWord 0x0000000E = .unused 1

/-- Decoding an encoded well-formed instruction gives it back, with every field at every value its width admits. That an
instruction has fields for the bits its operation ignores is the model's choice, log entry 13. -/
def Obligations.DecodeOfEncodeIsIdentity : Prop :=
  ∀ i : Instr, i.wf = true → decodeWord (encode i) = i

/-- Every word decodes to a well-formed instruction (R60: any 32-bit value decodes), and encoding that instruction gives the
word back. That the ignored bits, bit 3 (which R63 puts in no field) among them, come back too is the model's choice, log
entry 13: `Instr` keeps them. -/
def Obligations.EncodeOfDecodeIsIdentity : Prop :=
  ∀ w : Word, (decodeWord w).wf = true ∧ encode (decodeWord w) = w

/-- A word decodes to the instruction of a table row exactly when it matches that row: the rows of
spec/opcode_table.json cover every word and no two overlap (R78, R79, R81, R83; the spec's own decisions D1 and D2, log entry
12). -/
def Obligations.DecodedRowIsTheMatchingRow : Prop :=
  ∀ (w : Word) (i : Instr),
    w &&& (tableRow i).1 = (tableRow i).2 ↔ tableRow (decodeWord w) = tableRow i

/-- The fields of every decoded word stand at the positions of R62 to R75, by division, a register index and a result
operation by the number that `regOf` and `resOf` write out; and the eight values of the result-operation field are those of
R80's table, read and written alike (the spec's own decisions D1 and D2, log entry 12). -/
def Obligations.DecodedFieldsStandAtTheirBits : Prop :=
  ∀ w : Word,
    (∀ f, decodeWord w = .add f ∨ decodeWord w = .sub f ∨ decodeWord w = .xor f ∨ decodeWord w = .or f ∨
        decodeWord w = .and f ∨ decodeWord w = .andn f ∨ decodeWord w = .nand f →
      f.res = resOf (bits w 4 3) ∧ f.exit = decide (bits w 7 1 = 1) ∧ f.dst = regOf (bits w 8 3) ∧
      f.srcA = regOf (bits w 11 3) ∧ f.srcB = regOf (bits w 14 3)) ∧
    (∀ f, decodeWord w = .addi f ∨ decodeWord w = .read f →
      f.res = resOf (bits w 4 3) ∧ f.exit = decide (bits w 7 1 = 1) ∧ f.dst = regOf (bits w 8 3) ∧
      f.srcA = regOf (bits w 11 3) ∧ f.imm.toNat = bits w 14 18) ∧
    (∀ f, decodeWord w = .extins f →
      f.res = resOf (bits w 4 3) ∧ f.exit = decide (bits w 7 1 = 1) ∧ f.dst = regOf (bits w 8 3) ∧
      f.srcA = regOf (bits w 11 3) ∧ f.srcB = regOf (bits w 14 3) ∧ f.srcBit.toNat = bits w 17 5 ∧
      f.size.toNat = bits w 22 5 ∧ f.dstBit.toNat = bits w 27 5) ∧
    (∀ f, decodeWord w = .extshli f →
      f.res = resOf (bits w 4 3) ∧ f.exit = decide (bits w 7 1 = 1) ∧ f.dst = regOf (bits w 8 3) ∧
      f.srcA = regOf (bits w 11 3) ∧ f.srcB = regOf (bits w 14 3) ∧ f.size.toNat = bits w 22 5 ∧
      f.dstBit.toNat = bits w 27 5) ∧
    (∀ f, decodeWord w = .extshlr f →
      f.res = resOf (bits w 4 3) ∧ f.exit = decide (bits w 7 1 = 1) ∧ f.dst = regOf (bits w 8 3) ∧
      f.srcA = regOf (bits w 11 3) ∧ f.srcB = regOf (bits w 14 3) ∧ f.srcBit.toNat = bits w 17 5 ∧
      f.size.toNat = bits w 22 5) ∧
    (∀ f, decodeWord w = .brz f ∨ decodeWord w = .brnz f ∨ decodeWord w = .brzA f ∨ decodeWord w = .brnzA f →
      f.exit = decide (bits w 7 1 = 1) ∧ f.srcA = regOf (bits w 11 3) ∧ f.imm.toNat = bits w 14 18) ∧
    [0, 1, 2, 3, 4, 5, 6, 7].map (fun n => ResultOp.ofBits (BitVec.ofNat 3 n)) =
      [.fetch, .mov, .movsm, .fetchsend, .movsend, .fetchsm, .movsmfetchsend, .movsmsend] ∧
    [ResultOp.fetch, .mov, .movsm, .fetchsend, .movsend, .fetchsm, .movsmfetchsend, .movsmsend].map
        (fun r => r.toBits.toNat) = [0, 1, 2, 3, 4, 5, 6, 7]

/-- R71: the immediate is the signed 18-bit field 31:14, from -131072 to 131071, held in two's complement; its low 3 bits
are `src_b` and its bits 7:3 are `alu_operation` and `bf_src_bit` (the spec's own decision D1, log entry 12). -/
def Obligations.ImmediateIsSignExtendedField : Prop :=
  ∀ w : Word,
    (immediate (immField w)).toInt =
      (if bits w 14 18 < 2 ^ 17 then (bits w 14 18 : Int) else (bits w 14 18 : Int) - 2 ^ 18) ∧
    -131072 ≤ (immediate (immField w)).toInt ∧ (immediate (immField w)).toInt ≤ 131071 ∧
    (immediate (immField w)).toNat % 8 = (srcBField w).toBits.toNat ∧
    (immediate (immField w)).toNat / 8 % 32 = (field21to17 w).toNat

/-- R43: byte `j` of a serialized word holds bits `8j+7:8j`, and the decoder reads a word from its four bytes so laid out,
leaving the bytes after them. -/
def Obligations.WordsAreSerializedLittleEndian : Prop :=
  ∀ (w : Word) (rest : List Byte),
    bytesOfWord w = [0, 1, 2, 3].map (fun j => BitVec.ofNat 8 (bits w (8 * j) 8)) ∧
    decodeBytes (bytesOfWord w ++ rest) = .ok (decodeWord w, rest)

/-- R84: two words that differ only in bits their operation ignores do the same and fault alike, but for the word itself
that a fault reports (R201). The spec's own decision D18 (log entry 13). -/
def Obligations.IgnoredBitsChangeNothing : Prop :=
  ∀ (w v : Word) (s : State),
    w ||| ignoredBits w = v ||| ignoredBits w →
    ∃ t u, exec (decodeWord w) s = .next t ∧ exec (decodeWord v) s = .next u ∧ forgetWord t = forgetWord u

/-- The pseudo-instructions have the words that the spec's assembler table gives, the fields put in by number (R87, the
spec's own decision D21, log entry 12). -/
def Obligations.PseudoInstructionsHaveTheirWords : Prop :=
  encode asmNop = 0x00000010 ∧ encode asmExit = 0x00000090 ∧
  ∀ (d a : Reg) (imm : BitVec 18),
    (encode (asmLi d imm)).toNat = 0x11 + d.toBits.toNat * 2 ^ 8 + imm.toNat * 2 ^ 14 ∧
    (encode (asmMov d a)).toNat = 0x10 + d.toBits.toNat * 2 ^ 8 + a.toBits.toNat * 2 ^ 11 ∧
    (encode (asmFetch d)).toNat = d.toBits.toNat * 2 ^ 8 ∧
    (encode (asmSend a)).toNat = 0x40 + a.toBits.toNat * 2 ^ 11 ∧
    (encode (asmSetm imm)).toNat = 0x21 + imm.toNat * 2 ^ 14 ∧
    (encode (asmB imm)).toNat = 0x27 + imm.toNat * 2 ^ 14

/-! ## Registers, fetch and the step -/

/-- R21, R22: `x[0]` reads 0, another register its stored value; a write to `x[0]` changes no state; a write to another
register stores the value, which a read of it then gives, and changes nothing else. -/
def Obligations.RegisterZeroIsHardWired : Prop :=
  ∀ (s : State) (v : Word) (d r : Reg),
    s.readReg .r0 = 0 ∧
    [Reg.r1, .r2, .r3, .r4, .r5, .r6, .r7].map s.readReg =
      [s.regs.x1, s.regs.x2, s.regs.x3, s.regs.x4, s.regs.x5, s.regs.x6, s.regs.x7] ∧
    s.writeReg .r0 v = s ∧
    s.writeReg d v = { s with regs := (s.writeReg d v).regs } ∧
    (d ≠ .r0 → (s.writeReg d v).readReg d = v) ∧
    (r ≠ d → (s.writeReg d v).readReg r = s.readReg r)

/-- A running invocation whose `pc` names word `w` of its program steps by executing the instruction `w` decodes to, the
advance and the sequencing being part of `exec` (R90, R94). -/
def Obligations.StepRunsTheDecodedWord : Prop :=
  ∀ (s : State) (w : Word),
    s.status = .running → s.pc.toNat % 4 = 0 → s.program[s.pc.toNat / 4]? = some w →
    step s = exec (decodeWord w) s

/-- A fetch at an offset that is no multiple of 4, or past the last uploaded word, raises `E_FETCH_RANGE(pc)` and changes
nothing but the status (R42, R205). The fault past the last word is the spec's own decision D7 (log entry 11). -/
def Obligations.FetchOutsideProgramFaults : Prop :=
  ∀ s : State,
    s.status = .running → s.pc.toNat % 4 ≠ 0 ∨ s.program.length ≤ s.pc.toNat / 4 →
    step s = .next { s with status := .faulted (.fetchRange s.pc) }

/-- Once the invocation is not running no step of it occurs and no state changes, while the caller asks for nothing (R36,
R205; that the model answers the same state there is its choice, log entry 6). -/
def Obligations.EndedInvocationStaysAsItIs : Prop :=
  ∀ s : State, s.idle → s.requests = [] → step s = .next s

/-- Every state steps to a next state: nothing the block can be in ends the model's run (R101; faults are states, log entry
6). -/
def Obligations.EveryStateHasANextState : Prop :=
  ∀ s : State, ∃ t, step s = .next t

/-- After every executed instruction `pc` is the pending target if there was one, else four on; only a taken annulled
branch outside a delay slot goes elsewhere, and then to its own target (R92, R93, R156, R157; the width of `pc` and the
tested field by the spec's own decisions D8 and D3, log entries 15 and 4). -/
def Obligations.PcAfterEveryInstruction : Prop :=
  ∀ (i : Instr) (s t : State), exec i s = .next t →
    t.pc = dispatchPc s ∨
      ∃ f, ((i = .brzA f ∧ tested f s = 0) ∨ (i = .brnzA f ∧ tested f s ≠ 0)) ∧ s.seqMode = .normal ∧ t.pc = target f s

/-! ## Results -/

/-- The results of ADD, SUB, XOR, OR, AND, ANDN, NAND, ADDI and EXTINS where Move puts them into `dst`: each instruction
completes, `dst` reads the result (0, for register 0), and Move has no side effect: no event, no parameter fetched, the
method address as before (R111, R113, R115 to R119, R121, R131, R174). -/
def Obligations.MovedResults : Prop :=
  (∀ (f : AluFields) (s : State), f.res = .mov →
    moves (.add f) s f.dst (addValue (s.readReg f.srcA) (s.readReg f.srcB)) ∧
    moves (.sub f) s f.dst (subValue (s.readReg f.srcA) (s.readReg f.srcB)) ∧
    moves (.xor f) s f.dst (s.readReg f.srcA ^^^ s.readReg f.srcB) ∧
    moves (.or f) s f.dst (s.readReg f.srcA ||| s.readReg f.srcB) ∧
    moves (.and f) s f.dst (s.readReg f.srcA &&& s.readReg f.srcB) ∧
    moves (.andn f) s f.dst (s.readReg f.srcA &&& ~~~s.readReg f.srcB) ∧
    moves (.nand f) s f.dst (~~~(s.readReg f.srcA &&& s.readReg f.srcB))) ∧
  (∀ (f : ImmFields) (s : State), f.res = .mov → moves (.addi f) s f.dst (ofAddi f s).value) ∧
  ∀ (f : InsertFields) (s : State), f.res = .mov → moves (.extins f) s f.dst (ofExtins f s).value

/-- ADD, SUB, XOR, OR, AND, ANDN and NAND compute their value from both operands and complete their result operation, each in
exactly the next state the rules give, whatever `dst` is (R110, R111, R113, R115 to R119; the width of `pc` and the halt's
fault in that state are the spec's own decisions D8 and D14, log entry 15, here and in the statements after it). -/
def Obligations.AluInstructionsComplete : Prop :=
  ∀ (f : AluFields) (s : State), parameterLeft s f.res →
    exec (.add f) s = .next (completed s (ofAlu f (addValue (s.readReg f.srcA) (s.readReg f.srcB)))) ∧
    exec (.sub f) s = .next (completed s (ofAlu f (subValue (s.readReg f.srcA) (s.readReg f.srcB)))) ∧
    exec (.xor f) s = .next (completed s (ofAlu f (s.readReg f.srcA ^^^ s.readReg f.srcB))) ∧
    exec (.or f) s = .next (completed s (ofAlu f (s.readReg f.srcA ||| s.readReg f.srcB))) ∧
    exec (.and f) s = .next (completed s (ofAlu f (s.readReg f.srcA &&& s.readReg f.srcB))) ∧
    exec (.andn f) s = .next (completed s (ofAlu f (s.readReg f.srcA &&& ~~~s.readReg f.srcB))) ∧
    exec (.nand f) s = .next (completed s (ofAlu f (~~~(s.readReg f.srcA &&& s.readReg f.srcB))))

/-- ADDI adds the signed immediate modulo 2^32 and completes its result operation (R121). -/
def Obligations.AddImmediateCompletes : Prop :=
  ∀ (f : ImmFields) (s : State), parameterLeft s f.res →
    exec (.addi f) s = .next (completed s (ofAddi f s))

/-- EXTINS merges the field and completes its result operation (R131, R135). -/
def Obligations.ExtractInsertCompletes : Prop :=
  ∀ (f : InsertFields) (s : State), parameterLeft s f.res →
    exec (.extins f) s = .next (completed s (ofExtins f s))

/-- EXTSHLI and EXTSHLR compute their value, from a draw where the register amount is 32 or more, and complete their result
operation (R132, R133, R135, R136). Nothing is said of the draw's value: `LARGE_SHIFT` is open in the spec (D9, log entry
2). -/
def Obligations.ExtractShiftsComplete : Prop :=
  (∀ (f : ShiftImmFields) (s : State), parameterLeft s f.res →
    exec (.extshli f) s = .next (completed s (ofExtshli f s))) ∧
  (∀ (f : ShiftRegFields) (s : State), parameterLeft s f.res →
    exec (.extshlr f) s = .next (completed s (ofExtshlr f s)))

/-- READ of an admitted address traces `R(addr, v)` before any effect of its result operation, with `v` the oracle's, and
completes that operation (R140, R141, R48). Nothing is said of the oracle's value: `READ_ORACLE` is open in the spec (D11,
log entry 3). -/
def Obligations.AdmittedReadCompletes : Prop :=
  ∀ (f : ImmFields) (s : State), readAddress f s ∉ s.params.readRefused → parameterLeft s f.res →
    exec (.read f) s = .next (completed s (ofRead f s))

/-- A Read of an address that `READ_ADMITS` rejects raises `E_READ_REFUSED(addr)` with no trace event and no effect; in the
default configuration every address is admitted (R142; the spec's own decision D10, log entry 4). -/
def Obligations.RefusedReadFaults : Prop :=
  (∀ (f : ImmFields) (s : State), readAddress f s ∈ s.params.readRefused →
    exec (.read f) s = .next (faulted s (.readRefused (readAddress f s) (encode (.read f)) s.pc))) ∧
  ∀ addr : Word, readAdmits Params.spec addr = true

/-- R112, R114: ADDC and SUBB, executed, raise `E_ALU_UNIMPL` with their word and offset, whatever their operands and
whatever result operation they name; no result operation runs. -/
def Obligations.CarryAluInstructionsFault : Prop :=
  ∀ (f : AluFields) (s : State),
    exec (.addc f) s = .next (faulted s (.aluUnimpl (encode (.addc f)) s.pc)) ∧
    exec (.subb f) s = .next (faulted s (.aluUnimpl (encode (.subb f)) s.pc))

/-- The reserved ALU rows raise `E_ALU_UNIMPL` with their word and offset; no result operation runs (R120, which values carry
no sub-operation being the spec's own decision D2, log entry 12). -/
def Obligations.ReservedAluInstructionsFault : Prop :=
  ∀ (op : BitVec 5) (f : AluFields) (s : State),
    exec (.aluRsvd4to7 op f) s = .next (faulted s (.aluUnimpl (encode (.aluRsvd4to7 op f)) s.pc)) ∧
    exec (.aluRsvd13 f) s = .next (faulted s (.aluUnimpl (encode (.aluRsvd13 f)) s.pc)) ∧
    exec (.aluRsvd14to15 op f) s = .next (faulted s (.aluUnimpl (encode (.aluRsvd14to15 op f)) s.pc)) ∧
    exec (.aluRsvd16to31 op f) s = .next (faulted s (.aluUnimpl (encode (.aluRsvd16to31 op f)) s.pc))

/-- R112, R114, R120 on words: an ALU word with `alu_operation` 1, 3, 4 to 7 or 13 to 31, whatever its other bits, faults
with `E_ALU_UNIMPL(word)` when it is executed (positions and values by the spec's own decisions D1 and D2, log entry 12). -/
def Obligations.UnimplementedAluWordsFault : Prop :=
  ∀ (w : Word) (s : State),
    bits w 0 3 = 0 →
    bits w 17 5 = 1 ∨ bits w 17 5 = 3 ∨ (4 ≤ bits w 17 5 ∧ bits w 17 5 ≤ 7) ∨ 13 ≤ bits w 17 5 →
    exec (decodeWord w) s = .next (faulted s (.aluUnimpl w s.pc))

/-- An Unused instruction raises `E_UNUSED_OP(word)`, whatever its bits 31:3, in or out of a delay slot (R159); and so does
every word whose bits 2:0 are 6 (that the operation stands there and Unused has this number is by the spec's own decisions D1
and D2, log entry 12). -/
def Obligations.UnusedWordsFault : Prop :=
  (∀ (b : BitVec 29) (s : State), exec (.unused b) s = .next (faulted s (.unusedOp (encode (.unused b)) s.pc))) ∧
  ∀ (w : Word) (s : State), bits w 0 3 = 6 → exec (decodeWord w) s = .next (faulted s (.unusedOp w s.pc))

/-- An instruction with a result whose result operation finds no parameter left raises `E_PARAM_OVERRUN` with the cursor: it
sends nothing, and of its writes only those before the fetch are done (R171, R173, R176, R178, R179, R184). -/
def Obligations.MissingParameterFaults : Prop :=
  ∀ (i : Instr) (s : State) (c : Computed),
    computes i s = some c → fetches c.res = true → s.parameters.length ≤ s.cursor →
    exec i s = .next (overrun s c (encode i))

/-- An ALU, ADDI or bitfield instruction with a result, whose result operation is Move and whose `dst` is 0, changes nothing
but `pc`, the sequencer's state and, in the last step of an exit's chain, which halts, the status; the draw counter, which it
may move, is the model's own (R85, R174, R22; log entry 5). -/
def Obligations.MoveToRegisterZeroChangesOnlyTheSequencer : Prop :=
  ∀ (i : Instr) (s : State),
    resultOp i = some .mov → destination i = some .r0 → (∀ f, i ≠ .read f) →
    ∃ t, exec i s = .next t ∧
      t = { s with pc := t.pc, pending := t.pending, seqMode := t.seqMode, status := t.status, draws := t.draws } ∧
      (¬(s.seqMode = .delay true ∧ exitFlag i = false) → t.status = s.status)

/-! ## Bitfields -/

/-- R76, R130: the mask has exactly the low `bf_size` bits, is 0 for size 0 and 0x7FFFFFFF for size 31. -/
def Obligations.MaskHasTheLowSizeBits : Prop :=
  (∀ (size : BitVec 5) (k : Nat), (bitfieldMask size).getLsbD k = decide (k < size.toNat)) ∧
  (∀ size : BitVec 5, (bitfieldMask size).toNat = 2 ^ size.toNat - 1) ∧
  bitfieldMask 0 = 0 ∧ bitfieldMask 31 = 0x7FFFFFFF

/-- Bit by bit, EXTINS takes the bits `dst_bit` to `dst_bit + size - 1` that lie in the word from `b`, from `src_bit` on, and
every other bit from `a` (R131, R135). -/
def Obligations.ExtractInsertBitByBit : Prop :=
  ∀ (a b : Word) (srcBit size dstBit : BitVec 5) (k : Nat), k < 32 →
    (insertField a b srcBit size dstBit).getLsbD k =
      if dstBit.toNat ≤ k ∧ k < dstBit.toNat + size.toNat then b.getLsbD (k - dstBit.toNat + srcBit.toNat)
      else a.getLsbD k

/-- R136 (the spec's own decision D9, log entry 2): for amounts up to 31 the register shifts are the plain shifts and draw
nothing; from 32 on the value is the draw `LARGE_SHIFT`, whatever that is. -/
def Obligations.RegisterShiftsDrawFrom32On : Prop :=
  ∀ (s : State) (x n : Word),
    (n.toNat ≤ 31 →
      s.shiftRightReg x n = (BitVec.ofNat 32 (x.toNat / 2 ^ n.toNat), s) ∧
      s.shiftLeftReg x n = (BitVec.ofNat 32 (x.toNat * 2 ^ n.toNat % 2 ^ 32), s)) ∧
    (32 ≤ n.toNat →
      s.shiftRightReg x n = (Config.largeShift s.draws, { s with draws := s.draws + 1 }) ∧
      s.shiftLeftReg x n = (Config.largeShift s.draws, { s with draws := s.draws + 1 }))

/-! ## Parameters, method address, Send -/

/-- R171: FetchParameter returns the parameter at the cursor and advances it by one, also where the value goes to `r0`; with
none left it raises `E_PARAM_OVERRUN(cursor)`. -/
def Obligations.FetchParameterAdvancesTheCursor : Prop :=
  ∀ (s : State) (site : Site),
    (∀ v, s.parameters[s.cursor]? = some v →
      s.fetchParameter site = .ok (v, { s with cursor := s.cursor + 1 }) ∧
      s.fetchInto site .r0 = .ok { s with cursor := s.cursor + 1 }) ∧
    (s.parameters.length ≤ s.cursor →
      s.fetchParameter site =
        .error { s with status := .faulted (.paramOverrun s.cursor site.word site.base) })

/-- R172: SetMethod writes all 32 bits, so `address` is the value's low 12 bits and `increment` its bits 17:12, and does
nothing else; no engine event happens. -/
def Obligations.SetMethodWritesTheWholeRegister : Prop :=
  ∀ (s : State) (v : Word),
    s.setMethod v = { s with methodAddress := v } ∧
    (addressField (s.setMethod v).methodAddress).toNat = v.toNat % 4096 ∧
    (incrementField (s.setMethod v).methodAddress).toNat = v.toNat / 4096 % 64

/-- R181, R182: Send writes to the engine register `address` names, an address below 4096, as one event, then `address`
becomes `(address + increment) mod 4096`, and bits 31:12, `increment` among them, are unchanged. -/
def Obligations.SendWritesThenAdvances : Prop :=
  ∀ (s : State) (v : Word),
    s.send v =
      { s with trace := s.trace ++ [.write (BitVec.ofNat 32 (s.methodAddress.toNat % 4096)) v]
               methodAddress := (s.send v).methodAddress } ∧
    (addressField (s.send v).methodAddress).toNat =
      ((addressField s.methodAddress).toNat + (incrementField s.methodAddress).toNat) % 4096 ∧
    incrementField (s.send v).methodAddress = incrementField s.methodAddress ∧
    (s.send v).methodAddress.toNat / 4096 = s.methodAddress.toNat / 4096

/-! ## Sequencing, branches, halt -/

/-- The sequencer's table, row by row (R95, which the spec derives). -/
def Obligations.SequencerTable : Prop :=
  ∀ (s : State) (e h : Bool),
    s.sequence .takenAnnulled e false h = { s with seqMode := .normal } ∧
    s.sequence .takenDelayed e false h = { s with seqMode := .delay false } ∧
    s.sequence .cont true false h = { s with seqMode := .delay true } ∧
    s.sequence .cont false false h = { s with seqMode := .normal } ∧
    s.sequence .cont true true h = { s with seqMode := .delay true } ∧
    s.sequence .cont false true true = s.halt ∧
    s.sequence .cont false true false = { s with seqMode := .normal }

/-- The halt's check: halted when every parameter is consumed, else `E_PARAM_UNCONSUMED(cursor, len)`; the engine events
stand in either case (R214; the fault is the spec's own decision D14, log entry 15). -/
def Obligations.HaltChecksTheParameters : Prop :=
  ∀ s : State,
    (s.cursor = s.parameters.length → s.halt = { s with status := .halted }) ∧
    (s.cursor ≠ s.parameters.length →
      s.halt = { s with status := .faulted (.paramUnconsumed s.cursor s.parameters.length) }) ∧
    s.halt.trace = s.trace

/-- An instruction halts the invocation only as the delay-slot step that ends a chain started by an exit, without an exit of
its own, and with every parameter consumed (R36, R97, R98, R214). -/
def Obligations.HaltsOnlyAtTheEndOfAnExitChain : Prop :=
  ∀ (i : Instr) (s t : State),
    s.status = .running → exec i s = .next t → t.status = .halted →
    s.seqMode = .delay true ∧ exitFlag i = false ∧ t.cursor = t.parameters.length

/-- BRZ and BRNZ, their condition true, record the target and make the next step a delay-slot step (R152 to R155; the
meaning of the conditions and the branch's base are the spec's own decisions D5 and D4, log entry 15). -/
def Obligations.TakenBranchesEnterTheirDelaySlot : Prop :=
  ∀ (f : BranchFields) (s : State), s.seqMode = .normal →
    (tested f s = 0 → exec (.brz f) s = .next (takenDelayed f s)) ∧
    (tested f s ≠ 0 → exec (.brnz f) s = .next (takenDelayed f s))

/-- BRZ.A and BRNZ.A, their condition true, jump at once (R152, R153, R156, R157; decisions D5 and D4 as above). -/
def Obligations.TakenAnnulledBranchesJump : Prop :=
  ∀ (f : BranchFields) (s : State), s.seqMode = .normal →
    (tested f s = 0 → exec (.brzA f) s = .next (takenAnnulled f s)) ∧
    (tested f s ≠ 0 → exec (.brnzA f) s = .next (takenAnnulled f s))

/-- A branch whose condition is false falls through, and its exit flag acts (R152, R99; the spec's own decisions D5 and D6,
log entry 15). -/
def Obligations.UntakenBranchesFallThrough : Prop :=
  ∀ (f : BranchFields) (s : State), s.seqMode = .normal →
    (tested f s ≠ 0 → exec (.brz f) s = .next (fallsThrough f s) ∧ exec (.brzA f) s = .next (fallsThrough f s)) ∧
    (tested f s = 0 → exec (.brnz f) s = .next (fallsThrough f s) ∧ exec (.brnzA f) s = .next (fallsThrough f s))

/-- R150: a Branch in a delay-slot step, of a taken branch or of an exit, raises `E_BRANCH_IN_DELAY_SLOT` whether or not it
would be taken. -/
def Obligations.BranchInDelaySlotFaults : Prop :=
  ∀ (f : BranchFields) (s : State) (haltAfter : Bool), s.seqMode = .delay haltAfter →
    exec (.brz f) s = .next (faulted s (.branchInDelaySlot (encode (.brz f)) s.pc)) ∧
    exec (.brnz f) s = .next (faulted s (.branchInDelaySlot (encode (.brnz f)) s.pc)) ∧
    exec (.brzA f) s = .next (faulted s (.branchInDelaySlot (encode (.brzA f)) s.pc)) ∧
    exec (.brnzA f) s = .next (faulted s (.branchInDelaySlot (encode (.brnzA f)) s.pc))

/-- `B #imm` outside a delay slot jumps whatever the registers hold: under `src_a` for every immediate, under `src_b` where
the immediate is a multiple of 8 (R87, the spec's own decisions D3 and D21, log entries 4 and 12). -/
def Obligations.PseudoBranchIsUnconditional : Prop :=
  ∀ (imm : BitVec 18) (s : State),
    s.seqMode = .normal → s.params.branchTest = .srcA ∨ imm.toNat % 8 = 0 →
    exec (asmB imm) s =
      .next { s with pc := BitVec.ofInt 32 ((s.pc.toNat : Int) + imm.toInt * 4), pending := none, seqMode := .normal }

/-- A branch whose `src_a` names the register that its immediate's low 3 bits name does the same under both values of
`BRANCH_TEST_FIELD` (R151). -/
def Obligations.AgreeingTestFieldsBranchAlike : Prop :=
  ∀ (f : BranchFields) (s : State) (i : Instr),
    f.srcA = regOf (f.imm.toNat % 8) → i = .brz f ∨ i = .brnz f ∨ i = .brzA f ∨ i = .brnzA f →
    ∃ t : State, exec i { s with params := { s.params with branchTest := .srcB } } =
        .next { t with params := { s.params with branchTest := .srcB } } ∧
      exec i { s with params := { s.params with branchTest := .srcA } } =
        .next { t with params := { s.params with branchTest := .srcA } }

/-! ## Frames -/

/-- What no instruction changes, and what only some may: a register other than its destination; the method address unless
its result operation sets it or Sends; the cursor, which moves by at most one and only for a fetching result operation; the
pending slot, which only BRZ and BRNZ fill; and never the program, the parameters, the uploads, the requests or the open
parameters (R22, R27, R29, R34, R40, R55, R158). -/
def Obligations.InstructionFrame : Prop :=
  ∀ (i : Instr) (s t : State), exec i s = .next t →
    t.program = s.program ∧ t.parameters = s.parameters ∧ t.methods = s.methods ∧ t.requests = s.requests ∧
    t.params = s.params ∧
    (∀ r, destination i ≠ some r → t.readReg r = s.readReg r) ∧
    ((∀ ro, resultOp i = some ro → writesMethodAddress ro = false) → t.methodAddress = s.methodAddress) ∧
    (t.cursor = s.cursor ∨
      (t.cursor = s.cursor + 1 ∧ s.cursor < s.parameters.length ∧ ∃ ro, resultOp i = some ro ∧ fetches ro = true)) ∧
    (t.pending ≠ none → ∃ f, i = .brz f ∨ i = .brnz f)

/-- The trace only grows: an instruction appends at most one read, which only READ performs, then at most one write, which
only a result operation that Sends performs and whose address is below 4096, and leaves every earlier event in place (R45,
R53, R205). -/
def Obligations.TraceOnlyGrows : Prop :=
  ∀ (i : Instr) (s t : State), exec i s = .next t →
    ∃ reads writes : List Event, t.trace = s.trace ++ reads ++ writes ∧
      (reads = [] ∨ ∃ f v, i = .read f ∧ reads = [.read (readAddress f s) v]) ∧
      (writes = [] ∨ ∃ ro a v, resultOp i = some ro ∧ sends ro = true ∧ a.toNat < 4096 ∧ writes = [.write a v])

/-- A word of the program that a step does not fetch has no effect on that step, whatever it encodes (R88, R203). -/
def Obligations.UnfetchedWordsHaveNoEffect : Prop :=
  ∀ (s : State) (other : List Word),
    s.status = .running → other[s.pc.toNat / 4]? = s.program[s.pc.toNat / 4]? →
    ∃ t, step s = .next t ∧ step { s with program := other } = .next { t with program := other }

/-- R32 (the spec's own decision D12, log entry 15): bits 31:18 of the method address are read by nothing: runs from two
states that differ only there never differ elsewhere, whatever the number of steps, and so never in what can be observed. -/
def Obligations.UpperMethodAddressBitsAreUnobservable : Prop :=
  ∀ (s t : State), forgetUpperBits s = forgetUpperBits t →
    ∀ k : Nat, ∃ s' t', Sys2Proof.core.run k s = .next s' ∧ Sys2Proof.core.run k t = .next t' ∧
      forgetUpperBits s' = forgetUpperBits t' ∧ State.observe s' = State.observe t'

/-! ## Entry, uploads, observation -/

/-- The reset state is the entry of an invocation: every element has its entry value, `pc` is 0, the pending slot is empty,
the mode Normal, the method address 0, the cursor 1, the registers zeroed but `x[1]`, which is the first parameter (R24,
R230, D31). That the list is `[0]` and the program empty there is the model's choice, log entry 1. -/
def Obligations.ResetIsInvocationEntry : Prop :=
  State.reset.status = .running ∧ State.reset.pc = 0 ∧ State.reset.pending = none ∧ State.reset.seqMode = .normal ∧
  State.reset.methodAddress = 0 ∧ State.reset.cursor = 1 ∧ State.reset.trace = [] ∧
  State.reset.parameters[0]? = some (State.reset.readReg .r1) ∧
  ∀ r, r ≠ .r1 → State.reset.readReg r = 0

/-- R24, R230: an Execute request with parameters, for a method that has code, enters its invocation: every element of the
invocation state takes its entry value, whatever it was before. -/
def Obligations.ExecuteEntersTheInvocation : Prop :=
  ∀ (s : State) (m p0 : Word) (ps : List Word) (rest : List Request) (e : MethodEntry),
    s.idle → s.requests = .execute m (p0 :: ps) :: rest → findMethod s.methods m = some e →
    ∃ t, step s = .next t ∧ t.status = .running ∧ t.pc = 0 ∧ t.pending = none ∧ t.seqMode = .normal ∧
      t.methodAddress = 0 ∧ t.cursor = 1 ∧ t.parameters = p0 :: ps ∧ t.trace = [] ∧ t.readReg .r1 = p0 ∧
      (∀ r, r ≠ .r1 → t.readReg r = 0) ∧ t.requests = rest

/-- The invocation runs the program fixed before, else every word uploaded so far, which is fixed from then on; other
methods are as they were (R35, R52, R234; the spec's own decision D17, log entry 15; the form the uploads are held in,
`methodsWf`, is the model's choice, log entry 21). -/
def Obligations.ExecuteFixesAndRunsTheProgram : Prop :=
  ∀ (s : State) (m p0 : Word) (ps : List Word) (rest : List Request) (e : MethodEntry),
    methodsWf s.methods = true → s.idle → s.requests = .execute m (p0 :: ps) :: rest →
    findMethod s.methods m = some e →
    ∃ t, step s = .next t ∧ t.program = e.compiled.getD e.uploaded ∧ fixedProgram t m = some t.program ∧
      ∀ n, n ≠ m → findMethod t.methods n = findMethod s.methods n

/-- R231 and R234's error, in the order of R204: an Execute of a method that has no code raises `E_NO_CODE(method)`, with or
without parameters; of a method that has, with an empty list, `E_NO_PARAMS`; the trace is empty and no step is made. The
second fault and the order are the spec's own decisions D13 and D15. That every other element of the invocation stays as it
was, none of them initialised, is the model's choice, log entry 10. -/
def Obligations.ExecuteThatCannotEnterFaults : Prop :=
  ∀ (s : State) (m : Word) (ps : List Word) (rest : List Request),
    s.idle → s.requests = .execute m ps :: rest →
    (findMethod s.methods m = none →
      step s = .next { s with requests := rest, trace := [], status := .faulted (.noCode m) }) ∧
    (findMethod s.methods m ≠ none → ps = [] →
      ∃ t, step s = .next t ∧ t.requests = rest ∧ t.status = .faulted .noParams ∧ t.trace = [] ∧ t.regs = s.regs ∧
        t.pc = s.pc ∧ t.pending = s.pending ∧ t.seqMode = s.seqMode ∧ t.methodAddress = s.methodAddress ∧
        t.cursor = s.cursor ∧ t.parameters = s.parameters ∧ t.program = s.program)

/-- AddCode appends the word to its method's upload buffer, which it makes where there is none, and touches nothing else: no
other method, no fixed program, no element of an invocation (R235; the spec's own decision D17, log entry 15; the form
the uploads are held in, `methodsWf`, is the model's choice, log entry 21). -/
def Obligations.AddCodeAppendsToItsMethod : Prop :=
  ∀ (s : State) (m w : Word) (rest : List Request),
    methodsWf s.methods = true → s.idle → s.requests = .addCode m w :: rest →
    ∃ ms, step s = .next { s with requests := rest, methods := ms } ∧
      findMethod ms m =
        some { number := m
               uploaded := ((findMethod s.methods m).elim [] (·.uploaded)) ++ [w]
               compiled := (findMethod s.methods m).bind (·.compiled) } ∧
      ∀ n, n ≠ m → findMethod ms n = findMethod s.methods n

/-- R52: once an invocation has fixed a method's program it stays what it is through every later step and request, and every
later invocation of the method runs it (the spec's own decision D17, log entry 15; the form the uploads are held in,
`methodsWf`, is the model's choice, log entry 21). -/
def Obligations.FixedProgramNeverChanges : Prop :=
  ∀ (s : State) (m : Word) (p : List Word),
    methodsWf s.methods = true → fixedProgram s m = some p →
    ∀ k : Nat, ∃ t, Sys2Proof.core.run k s = .next t ∧ fixedProgram t m = some p ∧
      ∀ (p0 : Word) (ps : List Word) (rest : List Request),
        State.idle t → State.requests t = .execute m (p0 :: ps) :: rest →
        ∃ u, step t = .next u ∧ u.program = p ∧ u.status = .running

/-- What an invocation left behind reaches no later one: two ended states that agree on the uploads and the next request,
and on nothing else of their invocations, agree after it on every observation, and where an invocation is entered on
everything an invocation consists of (R39, R232). -/
def Obligations.InvocationsAreIndependentOfHistory : Prop :=
  ∀ (s t : State) (m : Word) (ps : List Word) (restS restT : List Request),
    s.idle → t.idle → s.methods = t.methods →
    s.requests = .execute m ps :: restS → t.requests = .execute m ps :: restT →
    ∃ s' t', step s = .next s' ∧ step t = .next t' ∧ s'.observe = t'.observe ∧ s'.methods = t'.methods ∧
      (s'.status = .running →
        t' = { s' with requests := restT, params := t.params, draws := t.draws })

/-- R215 (the spec's own decision D26): the observation is the trace and the outcome, and the registers `x[1]` to `x[7]` for
a halted invocation only; the method address, the cursor, the sequencer's state and the parameters are not part of it. -/
def Obligations.ObservationIsTraceOutcomeAndHaltedRegisters : Prop :=
  ∀ s t : State,
    s.observe = t.observe ↔
      s.trace = t.trace ∧ s.status = t.status ∧
        (s.status = .halted → ∀ r, r ≠ .r0 → s.readReg r = t.readReg r)

/-- The fault codes tell the faults apart, whatever information each carries, and their ranges the categories: 0x01 to 0x03
unimplemented, 0x10 to 0x16 precondition, 0x20 collaborator (R201, R202; the numbers are the spec's own decision D15, log
entry 15). -/
def Obligations.FaultCodesKeepTheCategoriesApart : Prop :=
  (∀ f : Fault, (faultCategory f = .unimplemented ↔ 0x01 ≤ faultCode f ∧ faultCode f ≤ 0x03) ∧
    (faultCategory f = .precondition ↔ 0x10 ≤ faultCode f ∧ faultCode f ≤ 0x16) ∧
    (faultCategory f = .collaborator ↔ faultCode f = 0x20)) ∧
  (∀ word base : Word, faultCode (.unusedOp word base) = 0x01) ∧
  (∀ word base : Word, faultCode (.aluUnimpl word base) = 0x02) ∧
  (∀ word base : Word, faultCode (.resultUnimpl word base) = 0x03) ∧
  (∀ word base : Word, faultCode (.branchInDelaySlot word base) = 0x10) ∧
  (∀ (cursor : Nat) (word base : Word), faultCode (.paramOverrun cursor word base) = 0x11) ∧
  (∀ cursor len : Nat, faultCode (.paramUnconsumed cursor len) = 0x12) ∧
  faultCode .noParams = 0x13 ∧
  (∀ method : Word, faultCode (.noCode method) = 0x14) ∧
  (∀ index : Nat, faultCode (.regIndex index) = 0x15) ∧
  (∀ pc : Word, faultCode (.fetchRange pc) = 0x16) ∧
  ∀ addr word base : Word, faultCode (.readRefused addr word base) = 0x20

/-! ## The invariant -/

/-- The reset state has the invariant (its parameter list and its uploads' form are the model's choices, log entries 1 and
21). -/
def Obligations.InvariantHoldsAtReset : Prop := State.reset.Inv

/-- Every step, of an instruction or of a request, keeps the invariant: the pending slot is filled only before a branch's
delay slot (R103), `pc` and the pending target are multiples of 4 (R26), the cursor stays within the parameters (R33, R34),
a halt has consumed them all (R214), every traced write names an address below 4096 (R45). Its last clause, `methodsWf`, is
the model's choice and no rule of the spec: the uploads stay one list by strictly rising method number, each a non-empty
buffer and the fixed program a beginning of it (log entry 21). -/
def Obligations.EveryStepKeepsTheInvariant : Prop :=
  ∀ s t : State, s.Inv → step s = .next t → t.Inv

/-- From a state with the invariant no misaligned fetch ever occurs: after any number of steps `pc` is a multiple of 4, and a
fetch that finds no word is past the program's end (R26, R50; the invariant's clause on the uploads is log entry 21's). -/
def Obligations.NoMisalignedFetchEverOccurs : Prop :=
  ∀ (s : State), s.Inv → ∀ k : Nat, ∃ t, Sys2Proof.core.run k s = .next t ∧
    (State.pc t).toNat % 4 = 0 ∧
    (fetchWord (State.program t) (State.pc t) = none → (State.program t).length ≤ (State.pc t).toNat / 4)
end

