-- ==== Sys2Proof/Laws/Decode.lean ====
section
/-! SUPPORT. What the decoder's and the encoder's helpers can do, said once: a placed field read back, two neighbouring fields joined, the codes of registers and result operations. -/

namespace Sys2Proof

/-! ## Codes -/

@[simp] theorem Reg.ofBits_toBits (r : Reg) : Reg.ofBits r.toBits = r := by cases r <;> rfl

@[simp] theorem Reg.toBits_ofBits (b : BitVec 3) : (Reg.ofBits b).toBits = b := by revert b; decide

@[simp] theorem ResultOp.ofBits_toBits (r : ResultOp) : ResultOp.ofBits r.toBits = r := by cases r <;> rfl

@[simp] theorem ResultOp.toBits_ofBits (b : BitVec 3) : (ResultOp.ofBits b).toBits = b := by revert b; decide

@[simp] theorem ofBool_beq_one (b : Bool) : (BitVec.ofBool b == 1#1) = b := by cases b <;> rfl

@[simp] theorem ofBool_bitField (w : Word) (k : Nat) : BitVec.ofBool (bitField w k) = w.extractLsb' k 1 := by
  unfold bitField
  generalize w.extractLsb' k 1 = b
  revert b
  decide

/-! ## Placed fields -/

/-- Bit `k` of a placed field. -/
theorem getLsbD_placeAt (lo : Nat) {n : Nat} (b : BitVec n) (k : Nat) :
    (placeAt lo b).getLsbD k = (decide (k < 32) && decide (lo ≤ k) && b.getLsbD (k - lo)) := by
  unfold placeAt
  rw [BitVec.getLsbD_shiftLeft, BitVec.getLsbD_setWidth]
  by_cases h : k < 32 <;> by_cases h2 : lo ≤ k
  · have h3 : k - lo < 32 := by omega
    have h4 : ¬ k < lo := by omega
    simp [h, h2, h3, h4]
  · have h4 : k < lo := by omega
    simp [h2, h4]
  · simp [h]
  · simp [h]

/-- A placed field reads back whole. -/
@[simp] theorem extract_placeAt_same (lo : Nat) {n : Nat} (b : BitVec n) (h : lo + n ≤ 32) :
    (placeAt lo b).extractLsb' lo n = b := by
  apply BitVec.eq_of_getLsbD_eq
  intro i hi
  have h1 : lo + i < 32 := by omega
  rw [BitVec.getLsbD_extractLsb', getLsbD_placeAt]
  simp [hi, h1]

/-- A field read where another one was placed reads 0. -/
theorem extract_placeAt_apart (lo m k : Nat) {n : Nat} (b : BitVec n) (h : lo + n ≤ k ∨ k + m ≤ lo) :
    (placeAt lo b).extractLsb' k m = 0 := by
  apply BitVec.eq_of_getLsbD_eq
  intro i hi
  rw [BitVec.getLsbD_extractLsb', getLsbD_placeAt]
  simp only [hi, decide_true, Bool.true_and, BitVec.ofNat_eq_ofNat, BitVec.getLsbD_zero, Bool.and_eq_false_imp,
    Bool.and_eq_true, decide_eq_true_eq, and_imp]
  intro h1 h2
  exact BitVec.getLsbD_of_ge _ _ (by omega)

/-- Two neighbouring fields of a word, placed where they stood, are the one field they make. -/
theorem placeAt_join (w : Word) (lo n m : Nat) :
    placeAt lo (w.extractLsb' lo n) ||| placeAt (lo + n) (w.extractLsb' (lo + n) m) =
      placeAt lo (w.extractLsb' lo (n + m)) := by
  apply BitVec.eq_of_getLsbD_eq
  intro k hk
  rw [BitVec.getLsbD_or]
  simp only [getLsbD_placeAt, BitVec.getLsbD_extractLsb', hk, decide_true, Bool.true_and]
  by_cases h1 : lo ≤ k
  · have e : lo + (k - lo) = k := by omega
    by_cases h2 : lo + n ≤ k
    · have e2 : lo + n + (k - (lo + n)) = k := by omega
      have h3 : ¬ k - lo < n := by omega
      have h4 : k - (lo + n) < m ↔ k - lo < n + m := by omega
      simp [h1, h2, h3, h4, e, e2]
    · have h3 : k - lo < n := by omega
      have h4 : k - lo < n + m := by omega
      simp [h1, h2, h3, h4]
  · have h2 : ¬ lo + n ≤ k := by omega
    simp [h1, h2]

/-- The whole word as one field. -/
theorem placeAt_whole (w : Word) : placeAt 0 (w.extractLsb' 0 32) = w := by
  apply BitVec.eq_of_getLsbD_eq
  intro k hk
  rw [getLsbD_placeAt, BitVec.getLsbD_extractLsb']
  simp [hk]

/-- The four bytes of a word make the word (R43). -/
theorem wordOfBytes_bytesOfWord (w : Word) :
    wordOfBytes (w.extractLsb' 0 8) (w.extractLsb' 8 8) (w.extractLsb' 16 8) (w.extractLsb' 24 8) = w := by
  have h1 : placeAt 0 (w.extractLsb' 0 8) ||| placeAt 8 (w.extractLsb' 8 8) = placeAt 0 (w.extractLsb' 0 16) :=
    placeAt_join w 0 8 8
  have h2 : placeAt 0 (w.extractLsb' 0 16) ||| placeAt 16 (w.extractLsb' 16 8) = placeAt 0 (w.extractLsb' 0 24) :=
    placeAt_join w 0 16 8
  have h3 : placeAt 0 (w.extractLsb' 0 24) ||| placeAt 24 (w.extractLsb' 24 8) = placeAt 0 (w.extractLsb' 0 32) :=
    placeAt_join w 0 24 8
  unfold wordOfBytes
  rw [h1, h2, h3, placeAt_whole]

end Sys2Proof
end

