-- ==== Sys2Proof/Laws/State.lean ====
section
/-! SUPPORT. One lemma for each field of State after each single update, true by rfl. -/

namespace Sys2Proof.Machine

open Sys2Proof

/-! ## After `writeReg` -/

@[simp] theorem State.writeReg_regs (s : State) (r : Reg) (v : Word) : (s.writeReg r v).regs = s.regs.write r v := rfl

@[simp] theorem State.writeReg_pc (s : State) (r : Reg) (v : Word) : (s.writeReg r v).pc = s.pc := rfl

@[simp] theorem State.writeReg_pending (s : State) (r : Reg) (v : Word) : (s.writeReg r v).pending = s.pending := rfl

@[simp] theorem State.writeReg_seqMode (s : State) (r : Reg) (v : Word) : (s.writeReg r v).seqMode = s.seqMode := rfl

@[simp] theorem State.writeReg_methodAddress (s : State) (r : Reg) (v : Word) : (s.writeReg r v).methodAddress = s.methodAddress := rfl

@[simp] theorem State.writeReg_cursor (s : State) (r : Reg) (v : Word) : (s.writeReg r v).cursor = s.cursor := rfl

@[simp] theorem State.writeReg_parameters (s : State) (r : Reg) (v : Word) : (s.writeReg r v).parameters = s.parameters := rfl

@[simp] theorem State.writeReg_program (s : State) (r : Reg) (v : Word) : (s.writeReg r v).program = s.program := rfl

@[simp] theorem State.writeReg_status (s : State) (r : Reg) (v : Word) : (s.writeReg r v).status = s.status := rfl

@[simp] theorem State.writeReg_trace (s : State) (r : Reg) (v : Word) : (s.writeReg r v).trace = s.trace := rfl

@[simp] theorem State.writeReg_methods (s : State) (r : Reg) (v : Word) : (s.writeReg r v).methods = s.methods := rfl

@[simp] theorem State.writeReg_requests (s : State) (r : Reg) (v : Word) : (s.writeReg r v).requests = s.requests := rfl

@[simp] theorem State.writeReg_params (s : State) (r : Reg) (v : Word) : (s.writeReg r v).params = s.params := rfl

@[simp] theorem State.writeReg_draws (s : State) (r : Reg) (v : Word) : (s.writeReg r v).draws = s.draws := rfl

/-! ## After `raise` -/

@[simp] theorem State.raise_regs (s : State) (f : Fault) : (s.raise f).regs = s.regs := rfl

@[simp] theorem State.raise_pc (s : State) (f : Fault) : (s.raise f).pc = s.pc := rfl

@[simp] theorem State.raise_pending (s : State) (f : Fault) : (s.raise f).pending = s.pending := rfl

@[simp] theorem State.raise_seqMode (s : State) (f : Fault) : (s.raise f).seqMode = s.seqMode := rfl

@[simp] theorem State.raise_methodAddress (s : State) (f : Fault) : (s.raise f).methodAddress = s.methodAddress := rfl

@[simp] theorem State.raise_cursor (s : State) (f : Fault) : (s.raise f).cursor = s.cursor := rfl

@[simp] theorem State.raise_parameters (s : State) (f : Fault) : (s.raise f).parameters = s.parameters := rfl

@[simp] theorem State.raise_program (s : State) (f : Fault) : (s.raise f).program = s.program := rfl

@[simp] theorem State.raise_status (s : State) (f : Fault) : (s.raise f).status = .faulted f := rfl

@[simp] theorem State.raise_trace (s : State) (f : Fault) : (s.raise f).trace = s.trace := rfl

@[simp] theorem State.raise_methods (s : State) (f : Fault) : (s.raise f).methods = s.methods := rfl

@[simp] theorem State.raise_requests (s : State) (f : Fault) : (s.raise f).requests = s.requests := rfl

@[simp] theorem State.raise_params (s : State) (f : Fault) : (s.raise f).params = s.params := rfl

@[simp] theorem State.raise_draws (s : State) (f : Fault) : (s.raise f).draws = s.draws := rfl

/-! ## After `engineWrite` -/

@[simp] theorem State.engineWrite_regs (s : State) (a v : Word) : (s.engineWrite a v).regs = s.regs := rfl

@[simp] theorem State.engineWrite_pc (s : State) (a v : Word) : (s.engineWrite a v).pc = s.pc := rfl

@[simp] theorem State.engineWrite_pending (s : State) (a v : Word) : (s.engineWrite a v).pending = s.pending := rfl

@[simp] theorem State.engineWrite_seqMode (s : State) (a v : Word) : (s.engineWrite a v).seqMode = s.seqMode := rfl

@[simp] theorem State.engineWrite_methodAddress (s : State) (a v : Word) : (s.engineWrite a v).methodAddress = s.methodAddress := rfl

@[simp] theorem State.engineWrite_cursor (s : State) (a v : Word) : (s.engineWrite a v).cursor = s.cursor := rfl

@[simp] theorem State.engineWrite_parameters (s : State) (a v : Word) : (s.engineWrite a v).parameters = s.parameters := rfl

@[simp] theorem State.engineWrite_program (s : State) (a v : Word) : (s.engineWrite a v).program = s.program := rfl

@[simp] theorem State.engineWrite_status (s : State) (a v : Word) : (s.engineWrite a v).status = s.status := rfl

@[simp] theorem State.engineWrite_trace (s : State) (a v : Word) : (s.engineWrite a v).trace = s.trace ++ [.write a v] := rfl

@[simp] theorem State.engineWrite_methods (s : State) (a v : Word) : (s.engineWrite a v).methods = s.methods := rfl

@[simp] theorem State.engineWrite_requests (s : State) (a v : Word) : (s.engineWrite a v).requests = s.requests := rfl

@[simp] theorem State.engineWrite_params (s : State) (a v : Word) : (s.engineWrite a v).params = s.params := rfl

@[simp] theorem State.engineWrite_draws (s : State) (a v : Word) : (s.engineWrite a v).draws = s.draws := rfl

/-! ## After `engineRead` -/

@[simp] theorem State.engineRead_regs (s : State) (a : Word) : (s.engineRead a).2.regs = s.regs := rfl

@[simp] theorem State.engineRead_pc (s : State) (a : Word) : (s.engineRead a).2.pc = s.pc := rfl

@[simp] theorem State.engineRead_pending (s : State) (a : Word) : (s.engineRead a).2.pending = s.pending := rfl

@[simp] theorem State.engineRead_seqMode (s : State) (a : Word) : (s.engineRead a).2.seqMode = s.seqMode := rfl

@[simp] theorem State.engineRead_methodAddress (s : State) (a : Word) : (s.engineRead a).2.methodAddress = s.methodAddress := rfl

@[simp] theorem State.engineRead_cursor (s : State) (a : Word) : (s.engineRead a).2.cursor = s.cursor := rfl

@[simp] theorem State.engineRead_parameters (s : State) (a : Word) : (s.engineRead a).2.parameters = s.parameters := rfl

@[simp] theorem State.engineRead_program (s : State) (a : Word) : (s.engineRead a).2.program = s.program := rfl

@[simp] theorem State.engineRead_status (s : State) (a : Word) : (s.engineRead a).2.status = s.status := rfl

@[simp] theorem State.engineRead_trace (s : State) (a : Word) : (s.engineRead a).2.trace = s.trace ++ [.read a (s.oracleValue a)] := rfl

@[simp] theorem State.engineRead_methods (s : State) (a : Word) : (s.engineRead a).2.methods = s.methods := rfl

@[simp] theorem State.engineRead_requests (s : State) (a : Word) : (s.engineRead a).2.requests = s.requests := rfl

@[simp] theorem State.engineRead_params (s : State) (a : Word) : (s.engineRead a).2.params = s.params := rfl

@[simp] theorem State.engineRead_draws (s : State) (a : Word) : (s.engineRead a).2.draws = s.draws + 1 := rfl

/-! ## After `drawLargeShift` -/

@[simp] theorem State.drawLargeShift_regs (s : State) : s.drawLargeShift.2.regs = s.regs := rfl

@[simp] theorem State.drawLargeShift_pc (s : State) : s.drawLargeShift.2.pc = s.pc := rfl

@[simp] theorem State.drawLargeShift_pending (s : State) : s.drawLargeShift.2.pending = s.pending := rfl

@[simp] theorem State.drawLargeShift_seqMode (s : State) : s.drawLargeShift.2.seqMode = s.seqMode := rfl

@[simp] theorem State.drawLargeShift_methodAddress (s : State) : s.drawLargeShift.2.methodAddress = s.methodAddress := rfl

@[simp] theorem State.drawLargeShift_cursor (s : State) : s.drawLargeShift.2.cursor = s.cursor := rfl

@[simp] theorem State.drawLargeShift_parameters (s : State) : s.drawLargeShift.2.parameters = s.parameters := rfl

@[simp] theorem State.drawLargeShift_program (s : State) : s.drawLargeShift.2.program = s.program := rfl

@[simp] theorem State.drawLargeShift_status (s : State) : s.drawLargeShift.2.status = s.status := rfl

@[simp] theorem State.drawLargeShift_trace (s : State) : s.drawLargeShift.2.trace = s.trace := rfl

@[simp] theorem State.drawLargeShift_methods (s : State) : s.drawLargeShift.2.methods = s.methods := rfl

@[simp] theorem State.drawLargeShift_requests (s : State) : s.drawLargeShift.2.requests = s.requests := rfl

@[simp] theorem State.drawLargeShift_params (s : State) : s.drawLargeShift.2.params = s.params := rfl

@[simp] theorem State.drawLargeShift_draws (s : State) : s.drawLargeShift.2.draws = s.draws + 1 := rfl

/-! ## After `setMethod` -/

@[simp] theorem State.setMethod_regs (s : State) (v : Word) : (s.setMethod v).regs = s.regs := rfl

@[simp] theorem State.setMethod_pc (s : State) (v : Word) : (s.setMethod v).pc = s.pc := rfl

@[simp] theorem State.setMethod_pending (s : State) (v : Word) : (s.setMethod v).pending = s.pending := rfl

@[simp] theorem State.setMethod_seqMode (s : State) (v : Word) : (s.setMethod v).seqMode = s.seqMode := rfl

@[simp] theorem State.setMethod_methodAddress (s : State) (v : Word) : (s.setMethod v).methodAddress = v := rfl

@[simp] theorem State.setMethod_cursor (s : State) (v : Word) : (s.setMethod v).cursor = s.cursor := rfl

@[simp] theorem State.setMethod_parameters (s : State) (v : Word) : (s.setMethod v).parameters = s.parameters := rfl

@[simp] theorem State.setMethod_program (s : State) (v : Word) : (s.setMethod v).program = s.program := rfl

@[simp] theorem State.setMethod_status (s : State) (v : Word) : (s.setMethod v).status = s.status := rfl

@[simp] theorem State.setMethod_trace (s : State) (v : Word) : (s.setMethod v).trace = s.trace := rfl

@[simp] theorem State.setMethod_methods (s : State) (v : Word) : (s.setMethod v).methods = s.methods := rfl

@[simp] theorem State.setMethod_requests (s : State) (v : Word) : (s.setMethod v).requests = s.requests := rfl

@[simp] theorem State.setMethod_params (s : State) (v : Word) : (s.setMethod v).params = s.params := rfl

@[simp] theorem State.setMethod_draws (s : State) (v : Word) : (s.setMethod v).draws = s.draws := rfl

/-! ## After `send` -/

@[simp] theorem State.send_regs (s : State) (v : Word) : (s.send v).regs = s.regs := rfl

@[simp] theorem State.send_pc (s : State) (v : Word) : (s.send v).pc = s.pc := rfl

@[simp] theorem State.send_pending (s : State) (v : Word) : (s.send v).pending = s.pending := rfl

@[simp] theorem State.send_seqMode (s : State) (v : Word) : (s.send v).seqMode = s.seqMode := rfl

@[simp] theorem State.send_methodAddress (s : State) (v : Word) : (s.send v).methodAddress = advanceAddress s.methodAddress := rfl

@[simp] theorem State.send_cursor (s : State) (v : Word) : (s.send v).cursor = s.cursor := rfl

@[simp] theorem State.send_parameters (s : State) (v : Word) : (s.send v).parameters = s.parameters := rfl

@[simp] theorem State.send_program (s : State) (v : Word) : (s.send v).program = s.program := rfl

@[simp] theorem State.send_status (s : State) (v : Word) : (s.send v).status = s.status := rfl

@[simp] theorem State.send_trace (s : State) (v : Word) : (s.send v).trace = s.trace ++ [.write ((addressField s.methodAddress).setWidth 32) v] := rfl

@[simp] theorem State.send_methods (s : State) (v : Word) : (s.send v).methods = s.methods := rfl

@[simp] theorem State.send_requests (s : State) (v : Word) : (s.send v).requests = s.requests := rfl

@[simp] theorem State.send_params (s : State) (v : Word) : (s.send v).params = s.params := rfl

@[simp] theorem State.send_draws (s : State) (v : Word) : (s.send v).draws = s.draws := rfl

/-! ## After `advance` -/

@[simp] theorem State.advance_regs (s : State) : s.advance.regs = s.regs := rfl

@[simp] theorem State.advance_pc (s : State) : s.advance.pc = s.pending.getD (s.pc + 4) := rfl

@[simp] theorem State.advance_pending (s : State) : s.advance.pending = none := rfl

@[simp] theorem State.advance_seqMode (s : State) : s.advance.seqMode = s.seqMode := rfl

@[simp] theorem State.advance_methodAddress (s : State) : s.advance.methodAddress = s.methodAddress := rfl

@[simp] theorem State.advance_cursor (s : State) : s.advance.cursor = s.cursor := rfl

@[simp] theorem State.advance_parameters (s : State) : s.advance.parameters = s.parameters := rfl

@[simp] theorem State.advance_program (s : State) : s.advance.program = s.program := rfl

@[simp] theorem State.advance_status (s : State) : s.advance.status = s.status := rfl

@[simp] theorem State.advance_trace (s : State) : s.advance.trace = s.trace := rfl

@[simp] theorem State.advance_methods (s : State) : s.advance.methods = s.methods := rfl

@[simp] theorem State.advance_requests (s : State) : s.advance.requests = s.requests := rfl

@[simp] theorem State.advance_params (s : State) : s.advance.params = s.params := rfl

@[simp] theorem State.advance_draws (s : State) : s.advance.draws = s.draws := rfl

/-! ## After `setSeqMode` -/

@[simp] theorem State.setSeqMode_regs (s : State) (m : SeqMode) : (s.setSeqMode m).regs = s.regs := rfl

@[simp] theorem State.setSeqMode_pc (s : State) (m : SeqMode) : (s.setSeqMode m).pc = s.pc := rfl

@[simp] theorem State.setSeqMode_pending (s : State) (m : SeqMode) : (s.setSeqMode m).pending = s.pending := rfl

@[simp] theorem State.setSeqMode_seqMode (s : State) (m : SeqMode) : (s.setSeqMode m).seqMode = m := rfl

@[simp] theorem State.setSeqMode_methodAddress (s : State) (m : SeqMode) : (s.setSeqMode m).methodAddress = s.methodAddress := rfl

@[simp] theorem State.setSeqMode_cursor (s : State) (m : SeqMode) : (s.setSeqMode m).cursor = s.cursor := rfl

@[simp] theorem State.setSeqMode_parameters (s : State) (m : SeqMode) : (s.setSeqMode m).parameters = s.parameters := rfl

@[simp] theorem State.setSeqMode_program (s : State) (m : SeqMode) : (s.setSeqMode m).program = s.program := rfl

@[simp] theorem State.setSeqMode_status (s : State) (m : SeqMode) : (s.setSeqMode m).status = s.status := rfl

@[simp] theorem State.setSeqMode_trace (s : State) (m : SeqMode) : (s.setSeqMode m).trace = s.trace := rfl

@[simp] theorem State.setSeqMode_methods (s : State) (m : SeqMode) : (s.setSeqMode m).methods = s.methods := rfl

@[simp] theorem State.setSeqMode_requests (s : State) (m : SeqMode) : (s.setSeqMode m).requests = s.requests := rfl

@[simp] theorem State.setSeqMode_params (s : State) (m : SeqMode) : (s.setSeqMode m).params = s.params := rfl

@[simp] theorem State.setSeqMode_draws (s : State) (m : SeqMode) : (s.setSeqMode m).draws = s.draws := rfl

end Sys2Proof.Machine
end

