-- ==== Sys2Proof/Laws/Ops.lean ====
section
/-! SUPPORT. What each shared operation can do, said once: registers, the fetch, FetchParameter, the result operations, the halt, the sequencer, a step after its fetch. -/

namespace Sys2Proof.Machine

open Sys2Proof

/-! ## Registers -/

@[simp] theorem RegFile.read_r0 (x : RegFile) : x.read .r0 = 0 := rfl

@[simp] theorem RegFile.write_r0 (x : RegFile) (v : Word) : x.write .r0 v = x := rfl

theorem RegFile.read_write (x : RegFile) (r q : Reg) (v : Word) :
    (x.write r v).read q = if q = r ∧ r ≠ .r0 then v else x.read q := by
  cases r <;> cases q <;> rfl

theorem RegFile.read_write_ne (x : RegFile) {r q : Reg} (v : Word) (h : q ≠ r) : (x.write r v).read q = x.read q := by
  rw [RegFile.read_write, if_neg (fun hq => h hq.1)]

/-- Two register files that read alike are equal. -/
theorem RegFile.ext_read {x y : RegFile} (h : ∀ r, x.read r = y.read r) : x = y := by
  obtain ⟨a1, a2, a3, a4, a5, a6, a7⟩ := x
  obtain ⟨b1, b2, b3, b4, b5, b6, b7⟩ := y
  have h1 : a1 = b1 := h .r1
  have h2 : a2 = b2 := h .r2
  have h3 : a3 = b3 := h .r3
  have h4 : a4 = b4 := h .r4
  have h5 : a5 = b5 := h .r5
  have h6 : a6 = b6 := h .r6
  have h7 : a7 = b7 := h .r7
  subst h1 h2 h3 h4 h5 h6 h7
  rfl

@[simp] theorem State.readReg_advance (s : State) (r : Reg) : s.advance.readReg r = s.readReg r := rfl

@[simp] theorem State.inDelay_advance (s : State) : s.advance.inDelay = s.inDelay := rfl

/-! ## Fetch -/

/-- The fetch gives a word exactly at an aligned offset below the program's end. -/
theorem fetchWord_eq_some {p : List Word} {pc w : Word} :
    fetchWord p pc = some w ↔ pc.toNat % 4 = 0 ∧ p[pc.toNat / 4]? = some w := by
  unfold fetchWord
  split <;> simp [*]

/-! ## Parameters -/

/-- FetchParameter answers the parameter and advances the cursor, or raises with nothing else changed. -/
theorem State.fetchParameter_cases (s : State) (site : Site) :
    (∃ v, s.parameters[s.cursor]? = some v ∧ s.fetchParameter site = .ok (v, { s with cursor := s.cursor + 1 })) ∨
    (s.parameters.length ≤ s.cursor ∧
      s.fetchParameter site = .error (s.raise (.paramOverrun s.cursor site.word site.base))) := by
  unfold State.fetchParameter
  cases h : s.parameters[s.cursor]? with
  | none => exact .inr ⟨by simpa using h, rfl⟩
  | some v => exact .inl ⟨v, rfl, rfl⟩

/-- FetchParameter with a parameter left. -/
theorem State.fetchParameter_ok (s : State) (site : Site) (h : s.cursor < s.parameters.length) :
    s.fetchParameter site = .ok (s.parameters[s.cursor], { s with cursor := s.cursor + 1 }) := by
  simp [State.fetchParameter, h]

/-- FetchParameter with none left. -/
theorem State.fetchParameter_error (s : State) (site : Site) (h : s.parameters.length ≤ s.cursor) :
    s.fetchParameter site = .error (s.raise (.paramOverrun s.cursor site.word site.base)) := by
  simp [State.fetchParameter, h]

/-! ## The halt and the sequencer -/

/-- The halt writes the status alone: halted with every parameter consumed, else the fault. -/
theorem State.halt_cases (s : State) :
    (s.cursor = s.parameters.length ∧ s.halt = { s with status := .halted }) ∨
    (s.cursor ≠ s.parameters.length ∧ s.halt = s.raise (.paramUnconsumed s.cursor s.parameters.length)) := by
  unfold State.halt
  split
  · exact .inl ⟨‹_›, rfl⟩
  · exact .inr ⟨‹_›, rfl⟩

/-- The sequencer writes the sequencer mode or halts, and nothing else. -/
theorem State.sequence_cases (s : State) (flow : Flow) (isExit inDelay haltAfter : Bool) :
    (∃ m, s.sequence flow isExit inDelay haltAfter = s.setSeqMode m) ∨
    (flow = .cont ∧ isExit = false ∧ inDelay = true ∧ haltAfter = true ∧
      s.sequence flow isExit inDelay haltAfter = s.halt) := by
  cases flow <;> cases isExit <;> cases inDelay <;> cases haltAfter <;> simp [State.sequence]

/-! ## A step after its fetch -/

/-- A step after its fetch always answers a next state: the raised one, or the sequenced one. -/
theorem runStep_cases (i : Instr) (x : Bool) (body : Site → State → Except State (Flow × State)) (s : State) :
    (∃ t, body { word := encode i, base := s.pc } s.advance = .error t ∧ runStep i x body s = .next t) ∨
    (∃ flow t, body { word := encode i, base := s.pc } s.advance = .ok (flow, t) ∧
      runStep i x body s = .next (t.sequence flow x s.inDelay s.haltAfter)) := by
  unfold runStep
  cases h : body { word := encode i, base := s.pc } s.advance with
  | error t => exact .inl ⟨t, rfl, rfl⟩
  | ok a => exact .inr ⟨a.1, a.2, rfl, rfl⟩

end Sys2Proof.Machine
end

