-- ==== Sys2Proof/Laws/Exec.lean ====
section
/-! SUPPORT. What an instruction can do, said once: every arm of `exec` is a result, a fault or a branch, and each of the three shapes answers one of a few next states. -/

namespace Sys2Proof.Machine

open Sys2Proof

/-! ## The arms of `exec`, each as the shared operation it is -/

theorem exec_add (f : AluFields) (s : State) : exec (.add f) s = runAlu (.add f) f (fun a b => a + b) s := rfl

theorem exec_sub (f : AluFields) (s : State) : exec (.sub f) s = runAlu (.sub f) f (fun a b => a - b) s := rfl

theorem exec_xor (f : AluFields) (s : State) : exec (.xor f) s = runAlu (.xor f) f (fun a b => a ^^^ b) s := rfl

theorem exec_or (f : AluFields) (s : State) : exec (.or f) s = runAlu (.or f) f (fun a b => a ||| b) s := rfl

theorem exec_and (f : AluFields) (s : State) : exec (.and f) s = runAlu (.and f) f (fun a b => a &&& b) s := rfl

theorem exec_andn (f : AluFields) (s : State) : exec (.andn f) s = runAlu (.andn f) f (fun a b => a &&& ~~~b) s := rfl

theorem exec_nand (f : AluFields) (s : State) : exec (.nand f) s = runAlu (.nand f) f (fun a b => ~~~(a &&& b)) s := rfl

theorem exec_addc (f : AluFields) (s : State) :
    exec (.addc f) s = .next (s.advance.raise (.aluUnimpl (encode (.addc f)) s.pc)) := rfl

theorem exec_subb (f : AluFields) (s : State) :
    exec (.subb f) s = .next (s.advance.raise (.aluUnimpl (encode (.subb f)) s.pc)) := rfl

theorem exec_aluRsvd4to7 (op : BitVec 5) (f : AluFields) (s : State) :
    exec (.aluRsvd4to7 op f) s = .next (s.advance.raise (.aluUnimpl (encode (.aluRsvd4to7 op f)) s.pc)) := rfl

theorem exec_aluRsvd13 (f : AluFields) (s : State) :
    exec (.aluRsvd13 f) s = .next (s.advance.raise (.aluUnimpl (encode (.aluRsvd13 f)) s.pc)) := rfl

theorem exec_aluRsvd14to15 (op : BitVec 5) (f : AluFields) (s : State) :
    exec (.aluRsvd14to15 op f) s = .next (s.advance.raise (.aluUnimpl (encode (.aluRsvd14to15 op f)) s.pc)) := rfl

theorem exec_aluRsvd16to31 (op : BitVec 5) (f : AluFields) (s : State) :
    exec (.aluRsvd16to31 op f) s = .next (s.advance.raise (.aluUnimpl (encode (.aluRsvd16to31 op f)) s.pc)) := rfl

theorem exec_addi (f : ImmFields) (s : State) :
    exec (.addi f) s =
      runResult (.addi f) f.exit f.res f.dst (fun _ s1 => .ok (s1.readReg f.srcA + immediate f.imm, s1)) s := rfl

theorem exec_extins (f : InsertFields) (s : State) :
    exec (.extins f) s =
      runResult (.extins f) f.exit f.res f.dst
        (fun _ s1 => .ok (insertField (s1.readReg f.srcA) (s1.readReg f.srcB) f.srcBit f.size f.dstBit, s1)) s := rfl

theorem exec_extshli (f : ShiftImmFields) (s : State) : exec (.extshli f) s = execExtshli f s := rfl

theorem exec_extshlr (f : ShiftRegFields) (s : State) : exec (.extshlr f) s = execExtshlr f s := rfl

theorem exec_read (f : ImmFields) (s : State) : exec (.read f) s = execRead f s := rfl

theorem exec_unused (b : BitVec 29) (s : State) :
    exec (.unused b) s = .next (s.advance.raise (.unusedOp (encode (.unused b)) s.pc)) := rfl

theorem exec_brz (f : BranchFields) (s : State) :
    exec (.brz f) s = runBranch (.brz f) .zero f takeDelayed s := rfl

theorem exec_brnz (f : BranchFields) (s : State) :
    exec (.brnz f) s = runBranch (.brnz f) .notZero f takeDelayed s := rfl

theorem exec_brzA (f : BranchFields) (s : State) :
    exec (.brzA f) s = runBranch (.brzA f) .zero f takeAnnulled s := rfl

theorem exec_brnzA (f : BranchFields) (s : State) :
    exec (.brnzA f) s = runBranch (.brnzA f) .notZero f takeAnnulled s := rfl

/-! ## The three shapes -/

/-- What computing a result may do to the state before the result operation: nothing, one draw, one engine read, or the
refusal of one. -/
inductive ComputesBy (site : Site) (s : State) : Except State (Word × State) → Prop where
  | plain (v : Word) : ComputesBy site s (.ok (v, s))
  | drawn : ComputesBy site s (.ok (Config.largeShift s.draws, { s with draws := s.draws + 1 }))
  | shifted (v : Word) (n : Nat) :
      ComputesBy site s (.ok ((Config.largeShift s.draws &&& v) <<< n, { s with draws := s.draws + 1 }))
  | read (a : Word) : ComputesBy site s (.ok (s.engineRead a))
  | refused (a : Word) : ComputesBy site s (.error (s.raise (.readRefused a site.word site.base)))

/-- The shapes of an instruction's meaning. -/
inductive ExecShape (i : Instr) (s : State) : Prop where
  | result (x : Bool) (ro : ResultOp) (d : Reg) (compute : Site → State → Except State (Word × State))
      (hc : ∀ site s1, ComputesBy site s1 (compute site s1)) (h : exec i s = runResult i x ro d compute s)
  | fault (f : Site → Fault) (h : exec i s = runFault i f s)
  | branch (c : BranchCondition) (f : BranchFields) (taken : State → Word → Flow × State)
      (ht : taken = takeDelayed ∨ taken = takeAnnulled) (h : exec i s = runBranch i c f taken s)

/-- Every instruction has one of the three shapes. -/
theorem exec_shape (i : Instr) (s : State) : ExecShape i s := by
  cases i with
  | add f => exact .result _ _ _ _ (fun _ _ => .plain _) rfl
  | sub f => exact .result _ _ _ _ (fun _ _ => .plain _) rfl
  | xor f => exact .result _ _ _ _ (fun _ _ => .plain _) rfl
  | or f => exact .result _ _ _ _ (fun _ _ => .plain _) rfl
  | and f => exact .result _ _ _ _ (fun _ _ => .plain _) rfl
  | andn f => exact .result _ _ _ _ (fun _ _ => .plain _) rfl
  | nand f => exact .result _ _ _ _ (fun _ _ => .plain _) rfl
  | addi f => exact .result _ _ _ _ (fun _ _ => .plain _) rfl
  | extins f => exact .result _ _ _ _ (fun _ _ => .plain _) rfl
  | extshli f =>
    have h : exec (.extshli f) s = execExtshli f s := rfl
    unfold execExtshli at h
    refine .result _ _ _ _ (fun site s1 => ?_) h
    unfold State.shiftRightReg
    by_cases hn : (s1.readReg f.srcA).toNat < 32
    · simp only [hn, if_true]
      exact .plain _
    · simp only [hn, if_false]
      exact .shifted _ _
  | extshlr f =>
    have h : exec (.extshlr f) s = execExtshlr f s := rfl
    unfold execExtshlr at h
    refine .result _ _ _ _ (fun site s1 => ?_) h
    unfold State.shiftLeftReg
    by_cases hn : (s1.readReg f.srcA).toNat < 32
    · simp only [hn, if_true]
      exact .plain _
    · simp only [hn, if_false]
      exact .drawn
  | read f =>
    have h : exec (.read f) s = execRead f s := rfl
    unfold execRead at h
    refine .result _ _ _ _ (fun site s1 => ?_) h
    split
    · exact .read _
    · exact .refused _
  | addc f => exact .fault (fun site => .aluUnimpl site.word site.base) rfl
  | subb f => exact .fault (fun site => .aluUnimpl site.word site.base) rfl
  | aluRsvd4to7 op f => exact .fault (fun site => .aluUnimpl site.word site.base) rfl
  | aluRsvd13 f => exact .fault (fun site => .aluUnimpl site.word site.base) rfl
  | aluRsvd14to15 op f => exact .fault (fun site => .aluUnimpl site.word site.base) rfl
  | aluRsvd16to31 op f => exact .fault (fun site => .aluUnimpl site.word site.base) rfl
  | unused b => exact .fault (fun site => .unusedOp site.word site.base) rfl
  | brz f => exact .branch _ _ _ (.inl rfl) rfl
  | brnz f => exact .branch _ _ _ (.inl rfl) rfl
  | brzA f => exact .branch _ _ _ (.inr rfl) rfl
  | brnzA f => exact .branch _ _ _ (.inr rfl) rfl

/-- A faulting operation: the advance, then the fault. -/
theorem runFault_eq (i : Instr) (f : Site → Fault) (s : State) :
    runFault i f s = .next (s.advance.raise (f { word := encode i, base := s.pc })) := rfl

/-- A branch faults in a delay slot; else it is taken, or falls through. -/
theorem runBranch_cases (i : Instr) (c : BranchCondition) (f : BranchFields) (taken : State → Word → Flow × State)
    (s : State) :
    (s.inDelay = true ∧
      runBranch i c f taken s = .next (s.advance.raise (.branchInDelaySlot (encode i) s.pc))) ∨
    (s.inDelay = false ∧ conditionHolds c (s.readReg (testedReg s.params f)) = true ∧
      runBranch i c f taken s =
        .next ((taken s.advance (branchTarget s.pc f.imm)).2.sequence (taken s.advance (branchTarget s.pc f.imm)).1
          f.exit s.inDelay s.haltAfter)) ∨
    (s.inDelay = false ∧ conditionHolds c (s.readReg (testedReg s.params f)) = false ∧
      runBranch i c f taken s = .next (s.advance.sequence .cont f.exit s.inDelay s.haltAfter)) := by
  unfold runBranch runStep
  simp only [State.inDelay_advance, State.readReg_advance, State.advance_params]
  by_cases hd : s.inDelay = true
  · refine .inl ⟨hd, ?_⟩
    simp only [hd, if_true]
  · by_cases hc : conditionHolds c (s.readReg (testedReg s.params f)) = true
    · refine .inr (.inl ⟨by simpa using hd, hc, ?_⟩)
      simp only [hd, hc, Bool.false_eq_true, if_true, if_false]
    · refine .inr (.inr ⟨by simpa using hd, by simpa using hc, ?_⟩)
      simp only [hd, hc, Bool.false_eq_true, if_false]

/-- A result: computing it raises, or its result operation raises, or both complete and the sequencer runs. -/
theorem runResult_cases (i : Instr) (x : Bool) (ro : ResultOp) (d : Reg)
    (compute : Site → State → Except State (Word × State)) (s : State) :
    (∃ t, compute { word := encode i, base := s.pc } s.advance = .error t ∧
      runResult i x ro d compute s = .next t) ∨
    (∃ v t u, compute { word := encode i, base := s.pc } s.advance = .ok (v, t) ∧
      t.applyResult { word := encode i, base := s.pc } ro d v = .error u ∧
      runResult i x ro d compute s = .next u) ∨
    (∃ v t u, compute { word := encode i, base := s.pc } s.advance = .ok (v, t) ∧
      t.applyResult { word := encode i, base := s.pc } ro d v = .ok u ∧
      runResult i x ro d compute s = .next (u.sequence .cont x s.inDelay s.haltAfter)) := by
  unfold runResult runStep
  rcases hc : compute { word := encode i, base := s.pc } s.advance with t | ⟨v, t⟩
  · exact .inl ⟨t, rfl, by simp only [hc]⟩
  · rcases ha : t.applyResult { word := encode i, base := s.pc } ro d v with u | u
    · exact .inr (.inl ⟨v, t, u, rfl, ha, by simp only [hc, ha]⟩)
    · exact .inr (.inr ⟨v, t, u, rfl, ha, by simp only [hc, ha]⟩)

/-- What a result operation can do: it writes its register, then as its table says sets the method address, moves the cursor
on, and Sends; it raises only for want of a parameter, having Sent nothing. -/
theorem State.applyResult_cases (s : State) (site : Site) (ro : ResultOp) (d : Reg) (v : Word) :
    (∃ (x : RegFile) (ma : Word),
      s.parameters.length ≤ s.cursor ∧
      s.applyResult site ro d v =
        .error { s with regs := x, methodAddress := ma,
                        status := .faulted (.paramOverrun s.cursor site.word site.base) } ∧
      (x = s.regs ∨ x = s.regs.write d v)) ∨
    (∃ (p ma : Word) (c : Nat) (sends : Option Word),
      (c = s.cursor ∨ (c = s.cursor + 1 ∧ s.cursor < s.parameters.length)) ∧
      s.applyResult site ro d v =
        .ok (match sends with
          | none => { s with regs := s.regs.write d p, cursor := c, methodAddress := ma }
          | some q => ({ s with regs := s.regs.write d p, cursor := c, methodAddress := ma } : State).send q)) := by
  by_cases h : s.cursor < s.parameters.length
  · refine .inr ?_
    cases ro with
    | fetch =>
      refine ⟨s.parameters[s.cursor], s.methodAddress, s.cursor + 1, none, .inr ⟨rfl, h⟩, ?_⟩
      simp only [State.applyResult, State.fetchInto, s.fetchParameter_ok site h]
      rfl
    | mov => exact ⟨v, s.methodAddress, s.cursor, none, .inl rfl, rfl⟩
    | movsm => exact ⟨v, v, s.cursor, none, .inl rfl, rfl⟩
    | fetchsend =>
      refine ⟨s.parameters[s.cursor], s.methodAddress, s.cursor + 1, some v, .inr ⟨rfl, h⟩, ?_⟩
      simp only [State.applyResult, State.fetchInto, s.fetchParameter_ok site h]
      rfl
    | movsend => exact ⟨v, s.methodAddress, s.cursor, some v, .inl rfl, rfl⟩
    | fetchsm =>
      refine ⟨s.parameters[s.cursor], v, s.cursor + 1, none, .inr ⟨rfl, h⟩, ?_⟩
      simp only [State.applyResult, State.fetchInto, s.fetchParameter_ok site h]
      rfl
    | movsmfetchsend =>
      refine ⟨v, v, s.cursor + 1, some s.parameters[s.cursor], .inr ⟨rfl, h⟩, ?_⟩
      simp only [State.applyResult, ((s.writeReg d v).setMethod v).fetchParameter_ok site h]
      rfl
    | movsmsend => exact ⟨v, v, s.cursor, some ((v >>> 12) &&& 0x3F#32), .inl rfl, rfl⟩
  · have h' : s.parameters.length ≤ s.cursor := Nat.le_of_not_lt h
    cases ro with
    | fetch =>
      refine .inl ⟨s.regs, s.methodAddress, h', ?_, .inl rfl⟩
      simp only [State.applyResult, State.fetchInto, s.fetchParameter_error site h']
      rfl
    | mov => exact .inr ⟨v, s.methodAddress, s.cursor, none, .inl rfl, rfl⟩
    | movsm => exact .inr ⟨v, v, s.cursor, none, .inl rfl, rfl⟩
    | fetchsend =>
      refine .inl ⟨s.regs, s.methodAddress, h', ?_, .inl rfl⟩
      simp only [State.applyResult, State.fetchInto, s.fetchParameter_error site h']
      rfl
    | movsend => exact .inr ⟨v, s.methodAddress, s.cursor, some v, .inl rfl, rfl⟩
    | fetchsm =>
      refine .inl ⟨s.regs, s.methodAddress, h', ?_, .inl rfl⟩
      simp only [State.applyResult, State.fetchInto, s.fetchParameter_error site h']
      rfl
    | movsmfetchsend =>
      refine .inl ⟨s.regs.write d v, v, h', ?_, .inr rfl⟩
      simp only [State.applyResult, ((s.writeReg d v).setMethod v).fetchParameter_error site h']
      rfl
    | movsmsend => exact .inr ⟨v, v, s.cursor, some ((v >>> 12) &&& 0x3F#32), .inl rfl, rfl⟩

end Sys2Proof.Machine
end

