-- ==== Sys2Proof/Laws/Methods.lean ====
section
/-! SUPPORT. What the store of uploaded methods and the caller's requests can do, said once: a lookup after a put, and the canonical form kept by every operation. -/

namespace Sys2Proof.Machine

open Sys2Proof

/-! ## Lookup and put -/

/-- A lookup answers an entry of the number asked for. -/
theorem findMethod_number {ms : List MethodEntry} {m : Word} {e : MethodEntry} (h : findMethod ms m = some e) :
    e.number = m := by
  induction ms with
  | nil => simp [findMethod] at h
  | cons d rest ih =>
    unfold findMethod at h
    split at h
    · cases h
      assumption
    · exact ih h

/-- A lookup answers an entry of the store. -/
theorem findMethod_mem {ms : List MethodEntry} {m : Word} {e : MethodEntry} (h : findMethod ms m = some e) :
    e ∈ ms := by
  induction ms with
  | nil => simp [findMethod] at h
  | cons d rest ih =>
    unfold findMethod at h
    split at h
    · cases h
      exact List.mem_cons_self
    · exact List.mem_cons_of_mem _ (ih h)

/-- A number below every number of the store is not in it. -/
theorem findMethod_below {ms : List MethodEntry} {m : Word}
    (h : ∀ d ∈ ms, m.toNat < d.number.toNat) : findMethod ms m = none := by
  induction ms with
  | nil => rfl
  | cons d rest ih =>
    have hd := h d List.mem_cons_self
    have hne : d.number ≠ m := by
      rintro rfl
      omega
    rw [findMethod, if_neg hne]
    exact ih (fun x hx => h x (List.mem_cons_of_mem _ hx))

/-- The parts of the canonical form of a non-empty store. -/
theorem methodsWf_cons {e : MethodEntry} {rest : List MethodEntry} :
    methodsWf (e :: rest) = true ↔
      e.wf = true ∧ (∀ d ∈ rest, e.number.toNat < d.number.toNat) ∧ methodsWf rest = true := by
  simp [methodsWf, and_assoc]

/-- After a put, the entry is found under its number. -/
theorem findMethod_putMethod_same (ms : List MethodEntry) (e : MethodEntry) (h : methodsWf ms = true) :
    findMethod (putMethod ms e) e.number = some e := by
  induction ms with
  | nil => simp [putMethod, findMethod]
  | cons d rest ih =>
    obtain ⟨_, _, hr⟩ := methodsWf_cons.mp h
    unfold putMethod
    split
    · simp [findMethod]
    · split
      · simp [findMethod]
      · rename_i hne
        have hne' : d.number ≠ e.number := fun hc => hne hc.symm
        rw [findMethod, if_neg hne']
        exact ih hr

/-- After a put, every other number is found as before. -/
theorem findMethod_putMethod_other (ms : List MethodEntry) (e : MethodEntry) {n : Word} (hn : n ≠ e.number) :
    findMethod (putMethod ms e) n = findMethod ms n := by
  have hn' : e.number ≠ n := fun hc => hn hc.symm
  induction ms with
  | nil => simp [putMethod, findMethod, hn']
  | cons d rest ih =>
    unfold putMethod
    split
    · rw [findMethod, if_neg hn']
    · split
      · rename_i hd
        have hd' : d.number ≠ n := fun hc => hn (hc.symm.trans hd.symm)
        simp [findMethod, hn', hd']
      · simp only [findMethod, ih]

/-- A put of a well-formed entry keeps the canonical form. -/
theorem methodsWf_putMethod (ms : List MethodEntry) (e : MethodEntry) (h : methodsWf ms = true)
    (he : e.wf = true) : methodsWf (putMethod ms e) = true := by
  have hmem : ∀ (ns : List MethodEntry) (x : MethodEntry), x ∈ putMethod ns e → x = e ∨ x ∈ ns := by
    intro ns
    induction ns with
    | nil => intro x hx; simpa [putMethod] using hx
    | cons d rest ih =>
      intro x hx
      unfold putMethod at hx
      split at hx
      · simpa using hx
      · split at hx
        · rcases List.mem_cons.mp hx with hx | hx
          · exact .inl hx
          · exact .inr (List.mem_cons_of_mem _ hx)
        · rcases List.mem_cons.mp hx with hx | hx
          · exact .inr (hx ▸ List.mem_cons_self)
          · rcases ih x hx with hx | hx
            · exact .inl hx
            · exact .inr (List.mem_cons_of_mem _ hx)
  induction ms with
  | nil => simp [putMethod, methodsWf, he]
  | cons d rest ih =>
    obtain ⟨hd, hlt, hr⟩ := methodsWf_cons.mp h
    unfold putMethod
    split
    · rename_i hlt2
      refine methodsWf_cons.mpr ⟨he, ?_, h⟩
      intro x hx
      rcases List.mem_cons.mp hx with rfl | hx
      · exact hlt2
      · exact Nat.lt_trans hlt2 (hlt x hx)
    · split
      · rename_i heq
        exact methodsWf_cons.mpr ⟨he, fun x hx => heq ▸ hlt x hx, hr⟩
      · rename_i hge hne
        refine methodsWf_cons.mpr ⟨hd, ?_, ih hr⟩
        intro x hx
        rcases hmem rest x hx with rfl | hx
        · have hne' : x.number.toNat ≠ d.number.toNat := fun hc => hne (BitVec.eq_of_toNat_eq hc)
          omega
        · exact hlt x hx

/-- Every entry of a canonical store is well formed. -/
theorem wf_of_mem {ms : List MethodEntry} {e : MethodEntry} (h : methodsWf ms = true) (he : e ∈ ms) :
    e.wf = true := by
  induction ms with
  | nil => cases he
  | cons d rest ih =>
    obtain ⟨hd, _, hr⟩ := methodsWf_cons.mp h
    rcases List.mem_cons.mp he with rfl | he
    · exact hd
    · exact ih hr he

/-- The empty store, which reset holds, has the canonical form. -/
@[simp] theorem methodsWf_nil : methodsWf [] = true := rfl

/-! ## One entry -/

/-- An entry is well formed exactly when words were uploaded for it and its program, if fixed, begins them. -/
theorem MethodEntry.wf_iff (e : MethodEntry) :
    e.wf = true ↔ e.uploaded ≠ [] ∧ ∀ p, e.compiled = some p → p ≠ [] ∧ p <+: e.uploaded := by
  unfold MethodEntry.wf
  cases h : e.compiled with
  | none => simp
  | some p => simp

/-- Appending a word keeps an entry well formed. -/
theorem MethodEntry.wf_append {e : MethodEntry} (h : e.wf = true) (w : Word) :
    ({ e with uploaded := e.uploaded ++ [w] } : MethodEntry).wf = true := by
  rw [MethodEntry.wf_iff] at h ⊢
  refine ⟨by simp, fun p hp => ⟨(h.2 p hp).1, (h.2 p hp).2.trans (List.prefix_append _ _)⟩⟩

/-- Fixing an entry's program keeps it well formed. -/
theorem MethodEntry.wf_fix {e : MethodEntry} (h : e.wf = true) :
    ({ e with compiled := some e.program } : MethodEntry).wf = true := by
  rw [MethodEntry.wf_iff] at h ⊢
  refine ⟨h.1, fun p hp => ?_⟩
  cases hp
  unfold MethodEntry.program
  cases hc : e.compiled with
  | none => exact ⟨by simpa using h.1, by simp⟩
  | some q => simpa using h.2 q hc

/-! ## Requests -/

/-- AddCode keeps the canonical form. -/
theorem State.addCode_methodsWf (s : State) (m w : Word) (h : methodsWf s.methods = true) :
    methodsWf (s.addCode m w).methods = true := by
  unfold State.addCode
  split
  · exact methodsWf_putMethod _ _ h (by simp [MethodEntry.wf])
  · rename_i e hf
    exact methodsWf_putMethod _ _ h (MethodEntry.wf_append (wf_of_mem h (findMethod_mem hf)) w)

/-- Execute keeps the canonical form. -/
theorem State.execute_methodsWf (s : State) (m : Word) (ps : List Word) (h : methodsWf s.methods = true) :
    methodsWf (s.execute m ps).methods = true := by
  unfold State.execute
  split
  · exact h
  · rename_i e hf
    have hk := methodsWf_putMethod _ _ h (MethodEntry.wf_fix (wf_of_mem h (findMethod_mem hf)))
    split
    · exact hk
    · exact hk

/-- Serving a request keeps the canonical form. -/
theorem State.serve_methodsWf (s : State) (r : Request) (h : methodsWf s.methods = true) :
    methodsWf (s.serve r).methods = true := by
  cases r with
  | addCode m w => exact s.addCode_methodsWf m w h
  | execute m ps => exact s.execute_methodsWf m ps h

/-- Whatever happens between invocations keeps the canonical form. -/
theorem State.idleStep_methodsWf (s : State) (h : methodsWf s.methods = true) :
    methodsWf s.idleStep.methods = true := by
  unfold State.idleStep
  split
  · exact h
  · exact State.serve_methodsWf _ _ h

/-- What an Execute can do: fault before it enters, with or without the program now fixed, or enter. -/
theorem State.execute_cases (s : State) (m : Word) (ps : List Word) :
    (findMethod s.methods m = none ∧ s.execute m ps = { s with trace := [], status := .faulted (.noCode m) }) ∨
    (∃ e, findMethod s.methods m = some e ∧ ps = [] ∧
      s.execute m ps =
        { s with methods := putMethod s.methods { e with compiled := some e.program },
                 trace := [], status := .faulted .noParams }) ∨
    (∃ e p0 rest, findMethod s.methods m = some e ∧ ps = p0 :: rest ∧
      s.execute m ps =
        ({ s with methods := putMethod s.methods { e with compiled := some e.program } } : State).enter
          e.program p0 rest) := by
  unfold State.execute
  cases hf : findMethod s.methods m with
  | none => exact .inl ⟨rfl, rfl⟩
  | some e =>
    cases ps with
    | nil => exact .inr (.inl ⟨e, rfl, rfl, rfl⟩)
    | cons p0 rest => exact .inr (.inr ⟨e, p0, rest, rfl, rfl, rfl⟩)

/-- AddCode writes the store alone. -/
theorem State.addCode_eq (s : State) (m w : Word) :
    s.addCode m w =
      { s with methods := putMethod s.methods
                { number := m
                  uploaded := ((findMethod s.methods m).elim [] (·.uploaded)) ++ [w]
                  compiled := (findMethod s.methods m).bind (·.compiled) } } := by
  unfold State.addCode
  cases hf : findMethod s.methods m with
  | none => rfl
  | some e =>
    have hn := findMethod_number hf
    obtain ⟨n, u, c⟩ := e
    cases hn
    rfl

end Sys2Proof.Machine
end

