-- ==== Sys2Proof/Laws/PerInstr.lean ====
section
/-! SUPPORT. The family `TableRow`: the word of a well-formed instruction matches its own row of spec/opcode_table.json. One lemma for each constructor. -/

namespace Sys2Proof.Laws.TableRow

open Sys2Proof

/-- The `mask` and `match` of the instruction's row of spec/opcode_table.json. -/
def row (i : Instr) : Word × Word :=
  match i with
  | .add _ => (0x003E0007, 0x00000000)
  | .addc _ => (0x003E0007, 0x00020000)
  | .sub _ => (0x003E0007, 0x00040000)
  | .subb _ => (0x003E0007, 0x00060000)
  | .xor _ => (0x003E0007, 0x00100000)
  | .or _ => (0x003E0007, 0x00120000)
  | .and _ => (0x003E0007, 0x00140000)
  | .andn _ => (0x003E0007, 0x00160000)
  | .nand _ => (0x003E0007, 0x00180000)
  | .aluRsvd4to7 _ _ => (0x00380007, 0x00080000)
  | .aluRsvd13 _ => (0x003E0007, 0x001A0000)
  | .aluRsvd14to15 _ _ => (0x003C0007, 0x001C0000)
  | .aluRsvd16to31 _ _ => (0x00200007, 0x00200000)
  | .addi _ => (0x00000007, 0x00000001)
  | .extins _ => (0x00000007, 0x00000002)
  | .extshli _ => (0x00000007, 0x00000003)
  | .extshlr _ => (0x00000007, 0x00000004)
  | .read _ => (0x00000007, 0x00000005)
  | .unused _ => (0x00000007, 0x00000006)
  | .brz _ => (0x00000037, 0x00000007)
  | .brnz _ => (0x00000037, 0x00000017)
  | .brzA _ => (0x00000037, 0x00000027)
  | .brnzA _ => (0x00000037, 0x00000037)

/-- A well-formed instruction's word has its row's fixed bits. -/
def Statement (i : Instr) : Prop := i.wf = true → encode i &&& (row i).1 = (row i).2

/-! ## Masks as fields -/

theorem and_operation (w : Word) : w &&& 0x00000007#32 = placeAt 0 (w.extractLsb' 0 3) := by
  apply BitVec.eq_of_getLsbD_eq
  intro k hk
  interval_cases k <;> simp [placeAt]

theorem and_alu (w : Word) :
    w &&& 0x003E0007#32 = placeAt 0 (w.extractLsb' 0 3) ||| placeAt 17 (w.extractLsb' 17 5) := by
  apply BitVec.eq_of_getLsbD_eq
  intro k hk
  interval_cases k <;> simp [placeAt]

theorem and_branch (w : Word) :
    w &&& 0x00000037#32 =
      placeAt 0 (w.extractLsb' 0 3) ||| placeAt 4 (w.extractLsb' 4 1) ||| placeAt 5 (w.extractLsb' 5 1) := by
  apply BitVec.eq_of_getLsbD_eq
  intro k hk
  interval_cases k <;> simp [placeAt]

/-! ## The two fixed fields of an ALU word, the one of the others, the three of a branch word -/

theorem encodeAlu_operation (op : BitVec 5) (f : AluFields) : (encodeAlu op f).extractLsb' 0 3 = 0#3 := by
  simp [encodeAlu, encodeLow, BitVec.extractLsb'_or, extract_placeAt_apart]

theorem encodeAlu_op (op : BitVec 5) (f : AluFields) : (encodeAlu op f).extractLsb' 17 5 = op := by
  simp [encodeAlu, encodeLow, BitVec.extractLsb'_or, extract_placeAt_apart]

theorem encodeAlu_and (op : BitVec 5) (f : AluFields) : encodeAlu op f &&& 0x003E0007#32 = placeAt 17 op := by
  rw [and_alu, encodeAlu_operation, encodeAlu_op]
  simp [placeAt]

/-- A mask within the ALU mask sees the sub-operation alone. -/
theorem encodeAlu_and_part (op : BitVec 5) (f : AluFields) (m : Word) (hm : 0x003E0007#32 &&& m = m) :
    encodeAlu op f &&& m = placeAt 17 op &&& m := by
  rw [← encodeAlu_and op f, BitVec.and_assoc, hm]

theorem encodeImm_and (operation : BitVec 3) (f : ImmFields) :
    encodeImm operation f &&& 0x00000007#32 = placeAt 0 operation := by
  rw [and_operation]
  simp [encodeImm, encodeLow, BitVec.extractLsb'_or, extract_placeAt_apart]

theorem encodeBranch_and (annul notZero : Bool) (f : BranchFields) :
    encodeBranch annul notZero f &&& 0x00000037#32 =
      placeAt 0 7#3 ||| placeAt 4 (BitVec.ofBool notZero) ||| placeAt 5 (BitVec.ofBool annul) := by
  rw [and_branch]
  simp [encodeBranch, BitVec.extractLsb'_or, extract_placeAt_apart]

/-! ## One lemma for each constructor -/

theorem add (f : AluFields) : Statement (.add f) := fun _ => (encodeAlu_and _ f).trans rfl

theorem addc (f : AluFields) : Statement (.addc f) := fun _ => (encodeAlu_and _ f).trans rfl

theorem sub (f : AluFields) : Statement (.sub f) := fun _ => (encodeAlu_and _ f).trans rfl

theorem subb (f : AluFields) : Statement (.subb f) := fun _ => (encodeAlu_and _ f).trans rfl

theorem xor (f : AluFields) : Statement (.xor f) := fun _ => (encodeAlu_and _ f).trans rfl

theorem or (f : AluFields) : Statement (.or f) := fun _ => (encodeAlu_and _ f).trans rfl

theorem and (f : AluFields) : Statement (.and f) := fun _ => (encodeAlu_and _ f).trans rfl

theorem andn (f : AluFields) : Statement (.andn f) := fun _ => (encodeAlu_and _ f).trans rfl

theorem nand (f : AluFields) : Statement (.nand f) := fun _ => (encodeAlu_and _ f).trans rfl

theorem aluRsvd4to7 (op : BitVec 5) (f : AluFields) : Statement (.aluRsvd4to7 op f) := by
  intro h
  refine (encodeAlu_and_part op f 0x00380007#32 (by decide)).trans ?_
  change placeAt 17 op &&& 0x00380007#32 = 0x00080000#32
  simp only [Instr.wf, decide_eq_true_eq] at h
  revert op
  decide

theorem aluRsvd13 (f : AluFields) : Statement (.aluRsvd13 f) := fun _ => (encodeAlu_and _ f).trans rfl

theorem aluRsvd14to15 (op : BitVec 5) (f : AluFields) : Statement (.aluRsvd14to15 op f) := by
  intro h
  refine (encodeAlu_and_part op f 0x003C0007#32 (by decide)).trans ?_
  change placeAt 17 op &&& 0x003C0007#32 = 0x001C0000#32
  simp only [Instr.wf, decide_eq_true_eq] at h
  revert op
  decide

theorem aluRsvd16to31 (op : BitVec 5) (f : AluFields) : Statement (.aluRsvd16to31 op f) := by
  intro h
  refine (encodeAlu_and_part op f 0x00200007#32 (by decide)).trans ?_
  change placeAt 17 op &&& 0x00200007#32 = 0x00200000#32
  simp only [Instr.wf, decide_eq_true_eq] at h
  revert op
  decide

theorem addi (f : ImmFields) : Statement (.addi f) := fun _ => (encodeImm_and _ f).trans rfl

theorem extins (f : InsertFields) : Statement (.extins f) := by
  intro _
  change encodeInsert f &&& 0x00000007#32 = _
  rw [and_operation]
  simp [encodeInsert, encodeLow, BitVec.extractLsb'_or, extract_placeAt_apart]
  rfl

theorem extshli (f : ShiftImmFields) : Statement (.extshli f) := by
  intro _
  change encodeShiftImm f &&& 0x00000007#32 = _
  rw [and_operation]
  simp [encodeShiftImm, encodeLow, BitVec.extractLsb'_or, extract_placeAt_apart]
  rfl

theorem extshlr (f : ShiftRegFields) : Statement (.extshlr f) := by
  intro _
  change encodeShiftReg f &&& 0x00000007#32 = _
  rw [and_operation]
  simp [encodeShiftReg, encodeLow, BitVec.extractLsb'_or, extract_placeAt_apart]
  rfl

theorem read (f : ImmFields) : Statement (.read f) := fun _ => (encodeImm_and _ f).trans rfl

theorem unused (b : BitVec 29) : Statement (.unused b) := by
  intro _
  change (placeAt 0 6#3 ||| placeAt 3 b) &&& 0x00000007#32 = _
  rw [and_operation]
  simp [BitVec.extractLsb'_or, extract_placeAt_apart]
  rfl

theorem brz (f : BranchFields) : Statement (.brz f) := fun _ => (encodeBranch_and _ _ f).trans rfl

theorem brnz (f : BranchFields) : Statement (.brnz f) := fun _ => (encodeBranch_and _ _ f).trans rfl

theorem brzA (f : BranchFields) : Statement (.brzA f) := fun _ => (encodeBranch_and _ _ f).trans rfl

theorem brnzA (f : BranchFields) : Statement (.brnzA f) := fun _ => (encodeBranch_and _ _ f).trans rfl

end Sys2Proof.Laws.TableRow
end

