-- ==== Sys2Proof/Laws/Step.lean ====
section
/-! SUPPORT. What `step` can do, said once, a run of `k + 1` steps, and that a word placed at the fetch is the one the next step runs. -/

namespace Sys2Proof.Machine

open Sys2Proof

/-- A step executes the fetched word, or raises the fetch fault, or, the invocation having ended, serves a request. -/
theorem step_cases (s : State) :
    (∃ w, s.status = .running ∧ fetchWord s.program s.pc = some w ∧ step s = exec (decodeWord w) s) ∨
    (s.status = .running ∧ fetchWord s.program s.pc = none ∧ step s = .next (s.raise (.fetchRange s.pc))) ∨
    (s.status ≠ .running ∧ step s = .next s.idleStep) := by
  unfold step
  cases hs : s.status with
  | running =>
    cases hf : fetchWord s.program s.pc with
    | none => exact .inr (.inl ⟨rfl, rfl, rfl⟩)
    | some w => exact .inl ⟨w, rfl, rfl, rfl⟩
  | halted => exact .inr (.inr ⟨by simp, rfl⟩)
  | faulted f => exact .inr (.inr ⟨by simp, rfl⟩)

/-- A run of one step more, where that step answers a next state. -/
theorem run_succ (M : Host.Core) (k : Nat) (s t : M.State) (h : M.step s = .next t) :
    M.run (k + 1) s = M.run k t := by
  simp [Host.Core.run, h]

/-- The word placed at an index is read there. -/
theorem placeWord_get (program : List Word) (k : Nat) (w : Word) : (placeWord program k w)[k]? = some w := by
  have h : (program.take k ++ List.replicate (k - program.length) 0).length = k := by
    simp only [List.length_append, List.length_take, List.length_replicate]
    omega
  unfold placeWord
  rw [List.getElem?_append_right (by omega), h]
  simp

/-- After `placeAtPc` the fetch finds the word. -/
theorem State.fetchWord_placeAtPc (s : State) (w : Word) :
    fetchWord (s.placeAtPc w).program (s.placeAtPc w).pc = some w := by
  have hp : (s.placeAtPc w).pc.toNat = s.pc.toNat / 4 * 4 := by
    have := s.pc.isLt
    simp only [State.placeAtPc, BitVec.toNat_ofNat]
    omega
  rw [fetchWord_eq_some, hp]
  refine ⟨by omega, ?_⟩
  rw [Nat.mul_div_cancel _ (by decide)]
  exact placeWord_get _ _ _

/-- The next step runs exactly the placed instruction. -/
theorem step_withFetchWord (s : State) (nbits w : Nat) :
    step (s.withFetchWord nbits w) =
      exec (decodeWord (BitVec.ofNat 32 (w % 2 ^ nbits))) (s.withFetchWord nbits w) := by
  unfold step
  change (match fetchWord (s.withFetchWord nbits w).program (s.withFetchWord nbits w).pc with
    | none => _
    | some v => exec (decodeWord v) (s.withFetchWord nbits w)) = _
  rw [State.withFetchWord, State.fetchWord_placeAtPc]

end Sys2Proof.Machine
end

