-- ==== Sys2Proof/Tests/Slice0.lean ====
section
/-! SUPPORT. The model's own tests: the well-formedness smoke test, one word decoded for each constructor, single steps on the vectors of 95_test_vectors.md (named in each comment), and for every obligation with hypotheses a witness that meets them. -/

namespace Sys2Proof.Tests

open Sys2Proof Sys2Proof.Machine Sys2Proof.Spec

/-! ## Well-formedness -/

/-- ALU fields that are all zero. -/
def aluZero : AluFields :=
  { res := .fetch, exit := false, dst := .r0, srcA := .r0, srcB := .r0, bit3 := false, bits31to22 := 0 }

theorem test_wf_refuses_rsvd4to7_below : (Instr.aluRsvd4to7 3 aluZero).wf = false := by decide

theorem test_wf_refuses_rsvd4to7_above : (Instr.aluRsvd4to7 8 aluZero).wf = false := by decide

theorem test_wf_refuses_rsvd14to15_below : (Instr.aluRsvd14to15 13 aluZero).wf = false := by decide

theorem test_wf_refuses_rsvd14to15_above : (Instr.aluRsvd14to15 16 aluZero).wf = false := by decide

theorem test_wf_refuses_rsvd16to31_below : (Instr.aluRsvd16to31 15 aluZero).wf = false := by decide

/-! ## Decoding: one word for each constructor, from L2-ALU, L2-BF, L2-RD, L2-BR and L2-FLT, fields by R62 to R75 -/

/-- The fields of L2-ALU's words: `.MOV r3, r1, r2`. -/
def aluMov312 : AluFields :=
  { res := .mov, exit := false, dst := .r3, srcA := .r1, srcB := .r2, bit3 := false, bits31to22 := 0 }

theorem test_decode_add : decodeWord 0x00008B10 = .add aluMov312 := by decide

theorem test_decode_addc : decodeWord 0x00028B10 = .addc aluMov312 := by decide

theorem test_decode_sub : decodeWord 0x00048B10 = .sub aluMov312 := by decide

theorem test_decode_subb : decodeWord 0x00068B10 = .subb aluMov312 := by decide

theorem test_decode_xor : decodeWord 0x00108B10 = .xor aluMov312 := by decide

theorem test_decode_or : decodeWord 0x00128B10 = .or aluMov312 := by decide

theorem test_decode_and : decodeWord 0x00148B10 = .and aluMov312 := by decide

theorem test_decode_andn : decodeWord 0x00168B10 = .andn aluMov312 := by decide

theorem test_decode_nand : decodeWord 0x00188B10 = .nand aluMov312 := by decide

theorem test_decode_aluRsvd4to7 :
    decodeWord 0x00088B10 = .aluRsvd4to7 4 aluMov312 ∧ decodeWord 0x000E8B10 = .aluRsvd4to7 7 aluMov312 := by decide

theorem test_decode_aluRsvd13 : decodeWord 0x001A8B10 = .aluRsvd13 aluMov312 := by decide

theorem test_decode_aluRsvd14to15 :
    decodeWord 0x001C8B10 = .aluRsvd14to15 14 aluMov312 ∧ decodeWord 0x001E8B10 = .aluRsvd14to15 15 aluMov312 := by
  decide

theorem test_decode_aluRsvd16to31 :
    decodeWord 0x00208B10 = .aluRsvd16to31 16 aluMov312 ∧ decodeWord 0x003E8B10 = .aluRsvd16to31 31 aluMov312 := by
  decide

/-- I4: the smallest immediate. -/
theorem test_decode_addi :
    decodeWord 0x80000B11 =
      .addi { res := .mov, exit := false, dst := .r3, srcA := .r1, imm := -131072, bit3 := false } := by decide

/-- B2. -/
theorem test_decode_extins :
    decodeWord 0xE2388B12 =
      .extins { res := .mov, exit := false, dst := .r3, srcA := .r1, srcB := .r2, srcBit := 28, size := 8,
                dstBit := 28, bit3 := false } := by decide

/-- B8. -/
theorem test_decode_extshli :
    decodeWord 0xF8408B13 =
      .extshli { res := .mov, exit := false, dst := .r3, srcA := .r1, srcB := .r2, size := 1, dstBit := 31,
                 bit3 := false, bits21to17 := 0 } := by decide

/-- B11. -/
theorem test_decode_extshlr :
    decodeWord 0x02108B14 =
      .extshlr { res := .mov, exit := false, dst := .r3, srcA := .r1, srcB := .r2, srcBit := 8, size := 8,
                 bit3 := false, bits31to27 := 0 } := by decide

/-- D4. -/
theorem test_decode_read :
    decodeWord 0x00108745 =
      .read { res := .movsend, exit := false, dst := .r7, srcA := .r0, imm := 0x42, bit3 := false } := by decide

/-- F1, and the word with bit 3 set. -/
theorem test_decode_unused : decodeWord 0x00000006 = .unused 0 ∧ decodeWord 0x0000000E = .unused 1 := by decide

/-- J1. -/
theorem test_decode_brz :
    decodeWord 0x00009007 =
      .brz { exit := false, srcA := .r2, imm := 2, bit3 := false, bit6 := false, bits10to8 := 0 } := by decide

/-- J9: with the exit flag. -/
theorem test_decode_brnz :
    decodeWord 0x00009097 =
      .brnz { exit := true, srcA := .r2, imm := 2, bit3 := false, bit6 := false, bits10to8 := 0 } := by decide

/-- J12: a negative offset. -/
theorem test_decode_brzA :
    decodeWord 0xFFFE9027 =
      .brzA { exit := false, srcA := .r2, imm := -6, bit3 := false, bit6 := false, bits10to8 := 0 } := by decide

/-- J5. -/
theorem test_decode_brnzA :
    decodeWord 0x00004837 =
      .brnzA { exit := false, srcA := .r1, imm := 1, bit3 := false, bit6 := false, bits10to8 := 0 } := by decide

/-- The encoder gives the words of R87's pseudo-instructions `NOP` and `EXIT`. -/
theorem test_encode_nop_exit :
    encode (.add { aluZero with res := .mov }) = 0x00000010 ∧
    encode (.add { aluZero with res := .mov, exit := true }) = 0x00000090 := by decide

/-- R43: the lowest address holds bits 7:0; three bytes are no word. -/
theorem test_decode_bytes :
    decodeBytes [0x10, 0x8B, 0x04, 0x00, 0xFF] = .ok (.sub aluMov312, [0xFF]) ∧
    decodeBytes [0x10, 0x8B, 0x04] = .error (.truncated 3) := ⟨by rfl, by rfl⟩

theorem test_decode_table_word : decodeTableWord 32 0x00048B10 = some (.sub aluMov312) := by decide

/-- R89's lines for its words. -/
theorem test_assembly_lines :
    assemblyLine (decodeWord 0xFFFF6837) = some "BRNZ.A r5, #-3" ∧
    assemblyLine (decodeWord 0x02085312) = some "EXTINS.MOV r3, r2, r1, #4, #8, #0" ∧
    assemblyLine (decodeWord 0x00014191) = some "ADDI.MOV.X r1, r0, #5" := by decide

/-! ## Single steps -/

/-- The state after a step. -/
def next (s : State) : Option State :=
  match step s with
  | .next t => some t
  | .fault _ => none
  | .refused _ => none

/-- One word at offset 0 with `x1 = a`, `x2 = b` and both parameters consumed: the L2 harness after its `FETCH r2`. -/
def harness (w a b : Word) : State :=
  { State.reset with
    program := [w], parameters := [a, b], cursor := 2, regs := { State.reset.regs with x1 := a, x2 := b } }

/-- `x3` after the word. -/
def x3After (w a b : Word) : Option Word := (next (harness w a b)).map (fun t => t.regs.x3)

/-- The status after the word. -/
def statusAfter (w a b : Word) : Option Status := (next (harness w a b)).map (fun t => t.status)

/-- A1, A3. -/
theorem test_add :
    x3After 0x00008B10 0xFFFFFFFF 0x00000002 = some 0x00000001 ∧
    x3After 0x00008B10 0x12345678 0x11111111 = some 0x23456789 := by decide

/-- A5, A6. -/
theorem test_sub :
    x3After 0x00048B10 0x00000000 0x00000001 = some 0xFFFFFFFF ∧
    x3After 0x00048B10 0x80000000 0x00000001 = some 0x7FFFFFFF := by decide

/-- A7. -/
theorem test_xor : x3After 0x00108B10 0xFF00FF00 0x0FF00FF0 = some 0xF0F0F0F0 := by decide

/-- R116's example. -/
theorem test_or : x3After 0x00128B10 0x0000F0F0 0x0000FF00 = some 0x0000FFF0 := by decide

/-- A9. -/
theorem test_and : x3After 0x00148B10 0xFF00FF00 0x0FF00FF0 = some 0x0F000F00 := by decide

/-- A10: the complement is of `b`. -/
theorem test_andn : x3After 0x00168B10 0xFFFFFFFF 0x0000FFFF = some 0xFFFF0000 := by decide

/-- R119's example. -/
theorem test_nand : x3After 0x00188B10 0xFF00FF00 0x0FF00FF0 = some 0xF0FFF0FF := by decide

/-- A19: `dst` is also both sources. -/
theorem test_add_same_register :
    (next (harness 0x00004910 0x40000001 0)).map (fun t => t.regs.x1) = some 0x80000002 := by decide

/-- A13 to A18, the word at offset 0. -/
theorem test_unimplemented_alu :
    [0x00028B10, 0x00068B10, 0x00088B10, 0x000E8B10, 0x001A8B10, 0x003E8B10].map (fun w => statusAfter w 1 2) =
      [0x00028B10, 0x00068B10, 0x00088B10, 0x000E8B10, 0x001A8B10, 0x003E8B10].map
        (fun w => some (.faulted (.aluUnimpl w 0))) := by decide

/-- I2, I4. -/
theorem test_addi :
    x3After 0xFFFFCB11 0x0000000A 0 = some 0x00000009 ∧ x3After 0x80000B11 0 0 = some 0xFFFE0000 := by decide

/-- B1, B2, B5. -/
theorem test_extins :
    x3After 0x02088B12 0xFFFFFF00 0x00001234 = some 0xFFFFFF23 ∧
    x3After 0xE2388B12 0x12345678 0xABCDEF01 = some 0xA2345678 ∧
    x3After 0x380A8B12 0xDEADBEEF 0xFFFFFFFF = some 0xDEADBEEF := by decide

/-- B7, B8. -/
theorem test_extshli :
    x3After 0x22008B13 8 0x12345678 = some 0x00000560 ∧ x3After 0xF8408B13 31 0x80000000 = some 0x80000000 := by decide

/-- B15: by 32 the shifted value is the draw, whatever it is, and the mask and the left shift apply to it. -/
theorem test_extshli_draws :
    x3After 0x22008B13 32 0x12345678 = some ((Config.largeShift 0 &&& 0xFF#32) <<< 4) := by rfl

/-- B11, B12. -/
theorem test_extshlr :
    x3After 0x02108B14 4 0x12345678 = some 0x00000560 ∧ x3After 0x00808B14 31 3 = some 0x80000000 := by decide

/-- By 32 the value is the draw. -/
theorem test_extshlr_draws : x3After 0x02108B14 32 0x12345678 = some (Config.largeShift 0) := by rfl

/-- D1: the address is `x1 - 1`, the event comes with the oracle's value, which `x7` holds. -/
theorem test_read :
    (next (harness 0xFFFFCF15 0x100 0)).map (fun t => (t.trace, t.regs.x7)) =
      some ([.read 0xFF (Config.readOracle 0 0xFF [])], Config.readOracle 0 0xFF []) := by rfl

/-- D5: refused, with no event. -/
theorem test_read_refused :
    (next { harness 0xFFFFCF15 0x100 0 with params := { Params.spec with readRefused := [0xFF] } }).map
        (fun t => (t.trace, t.status)) =
      some ([], .faulted (.readRefused 0xFF 0xFFFFCF15 0)) := by decide

/-- F1. -/
theorem test_unused : statusAfter 0x00000006 0 0 = some (.faulted (.unusedOp 0x00000006 0)) := by decide

/-- Where a branch at offset 0 leaves control: `pc`, the pending slot, the mode. -/
def branchAfter (w a b : Word) : Option (Word × Option Word × SeqMode) :=
  (next (harness w a b)).map (fun t => (t.pc, t.pending, t.seqMode))

/-- J1 taken; J7: its exit flag is not acted on. -/
theorem test_brz :
    branchAfter 0x00009007 0 0 = some (4, some 8, .delay false) ∧
    branchAfter 0x00009087 0 0 = some (4, some 8, .delay false) := by decide

/-- J4 taken, J9 not taken with its exit flag. -/
theorem test_brnz :
    branchAfter 0x00004817 7 0 = some (4, some 4, .delay false) ∧
    branchAfter 0x00009097 0 0 = some (4, none, .delay true) := by decide

/-- J2 taken; J12: the target wraps below 0. -/
theorem test_brzA :
    branchAfter 0x00009027 0 0 = some (8, none, .normal) ∧
    branchAfter 0xFFFE9027 0 0 = some (0xFFFFFFE8, none, .normal) := by decide

/-- J5 taken; not taken it falls through. -/
theorem test_brnzA :
    branchAfter 0x00004837 7 0 = some (4, none, .normal) ∧ branchAfter 0x00009037 7 0 = some (4, none, .normal) := by
  decide

/-- The tested register under both values of `BRANCH_TEST_FIELD`, where they differ: `src_a` names r1, the immediate r2. -/
theorem test_branch_test_field :
    branchAfter 0x00008807 7 0 = some (4, some 8, .delay false) ∧
    (next { harness 0x00008807 7 0 with params := { Params.spec with branchTest := .srcA } }).map (fun t => t.seqMode) =
      some .normal := by decide

/-- J10, J11: a branch in a delay slot. -/
theorem test_branch_in_delay_slot :
    (next { harness 0x00009007 0 0 with seqMode := .delay false, pending := some 8 }).map (fun t => t.status) =
      some (.faulted (.branchInDelaySlot 0x00009007 0)) ∧
    (next { harness 0x00009017 0 0 with seqMode := .delay true }).map (fun t => t.status) =
      some (.faulted (.branchInDelaySlot 0x00009017 0)) := by decide

/-- R104: the exit in a branch's delay slot, then the target as the last word. -/
theorem test_exit_in_delay_slot :
    (next { harness 0x00004391 0 0 with seqMode := .delay false, pending := some 8 }).map
        (fun t => (t.pc, t.pending, t.seqMode, t.status)) =
      some (8, none, .delay true, .running) ∧
    (next { harness 0x00008411 0 0 with seqMode := .delay true }).map (fun t => (t.regs.x4, t.status)) =
      some (2, .halted) := by decide

/-- F4: parameters left over at the halt. -/
theorem test_unconsumed :
    (next { harness 0x00000010 1 2 with seqMode := .delay true, parameters := [1, 2, 3], cursor := 1 }).map
        (fun t => t.status) =
      some (.faulted (.paramUnconsumed 1 3)) := by decide

/-- L2-RES: method address 0x1010, parameters `[0, 0xAB]` with one left; what the word leaves in the trace, `x3`, the method
address and the cursor. -/
def resultAfter (w : Word) : Option (List Event × Word × Word × Nat) :=
  (next { harness w 0 0xAB with cursor := 1, methodAddress := 0x1010 }).map
    (fun t => (t.trace, t.regs.x3, t.methodAddress, t.cursor))

/-- S0. -/
theorem test_res_fetch : resultAfter 0x1448C301 = some ([], 0xAB, 0x1010, 2) := by decide

/-- S1. -/
theorem test_res_mov : resultAfter 0x1448C311 = some ([], 0x5123, 0x1010, 1) := by decide

/-- S2. -/
theorem test_res_movsm : resultAfter 0x1448C321 = some ([], 0x5123, 0x5123, 1) := by decide

/-- S3. -/
theorem test_res_fetchsend : resultAfter 0x1448C331 = some ([.write 0x010 0x5123], 0xAB, 0x1011, 2) := by decide

/-- S4. -/
theorem test_res_movsend : resultAfter 0x1448C341 = some ([.write 0x010 0x5123], 0x5123, 0x1011, 1) := by decide

/-- S5. -/
theorem test_res_fetchsm : resultAfter 0x1448C351 = some ([], 0xAB, 0x5123, 2) := by decide

/-- S6. -/
theorem test_res_movsmfetchsend : resultAfter 0x1448C361 = some ([.write 0x123 0xAB], 0x5123, 0x5128, 2) := by decide

/-- S7. -/
theorem test_res_movsmsend : resultAfter 0x1448C371 = some ([.write 0x123 0x5], 0x5123, 0x5128, 1) := by decide

/-- S9: the advance stays within bits 11:0. -/
theorem test_send_upper_bits :
    (next { harness 0x00000840 1 0 with methodAddress := 0xFFFFF000 }).map (fun t => (t.trace, t.methodAddress)) =
      some ([.write 0 1], 0xFFFFF03F) := by decide

/-- S11 to S13: with no parameter left nothing is sent. -/
theorem test_overrun :
    [0x08888301, 0x08888331, 0x08888361].map
        (fun w => (next (harness w 0 0)).map (fun t => (t.trace, t.status))) =
      [0x08888301, 0x08888331, 0x08888361].map (fun w => some ([], .faulted (.paramOverrun 2 w 0))) := by decide

/-- F6: the fetch past the last word. -/
theorem test_fetch_range :
    (next { harness 0x00000090 0 0 with pc := 4, seqMode := .delay true }).map (fun t => t.status) =
      some (.faulted (.fetchRange 4)) := by decide

/-- L1-2: a write to `r0` is dropped. -/
theorem test_register_zero : (next (harness 0x0001C011 5 6)).map (fun t => t.regs) = some (harness 0 5 6).regs := by
  decide

/-- A word placed on the reset state is the one the next step runs (P1's first word). -/
theorem test_with_fetch_word :
    (next (State.reset.withFetchWord 32 0x00014191)).map (fun t => (t.regs.x1, t.pc, t.seqMode)) =
      some (5, 4, .delay true) := by decide

/-! ## Requests -/

/-- An ended invocation with these requests. -/
def idleWith (rs : List Request) (ms : List MethodEntry) : State :=
  { State.reset with status := .halted, requests := rs, methods := ms }

/-- F9, F10: no code, checked before the parameters. -/
theorem test_no_code :
    (next (idleWith [.execute 9 [0]] [])).map (fun t => t.status) = some (.faulted (.noCode 9)) ∧
    (next (idleWith [.execute 9 []] [])).map (fun t => t.status) = some (.faulted (.noCode 9)) := by decide

/-- F5: no parameters. -/
theorem test_no_params :
    (next (idleWith [.execute 9 []] [{ number := 9, uploaded := [0x90, 0x10], compiled := none }])).map
        (fun t => t.status) = some (.faulted .noParams) := by decide

/-- R52: the first invocation fixes the program; a later upload does not reach the next one. -/
theorem test_program_fixed :
    (next (idleWith [.execute 9 [3]] [{ number := 9, uploaded := [0x90, 0x10, 0x6], compiled := some [0x90, 0x10] }])).map
        (fun t => (t.program, t.regs.x1)) = some ([0x90, 0x10], 3) := by decide

/-! ## Witnesses: for every obligation with hypotheses, values that meet them all -/

/-- A branch to the next word but one that tests `r2` under both values of `BRANCH_TEST_FIELD` (J1's fields). -/
def branch2 : BranchFields := { exit := false, srcA := .r2, imm := 2, bit3 := false, bit6 := false, bits10to8 := 0 }

/-- An immediate form that fetches into `r3`. -/
def immFetch : ImmFields := { res := .fetch, exit := false, dst := .r3, srcA := .r1, imm := 5, bit3 := false }

/-- A state with one parameter left, and the same with none. -/
def oneLeft : State := { harness 0x00000010 7 9 with cursor := 1 }

def noneLeft : State := harness 0x00000010 7 9

/-- Method 9 uploaded and fixed. -/
def fixed9 : List MethodEntry := [{ number := 9, uploaded := [0x90, 0x10, 0x6], compiled := some [0x90, 0x10] }]

theorem witness_DecodeOfEncodeIsIdentity :
    (Instr.add aluZero).wf = true ∧ (Instr.aluRsvd4to7 4 aluZero).wf = true ∧ (Instr.aluRsvd4to7 7 aluZero).wf = true ∧
    (Instr.aluRsvd14to15 15 aluZero).wf = true ∧ (Instr.aluRsvd16to31 16 aluZero).wf = true := by decide

theorem witness_DecodedFieldsStandAtTheirBits :
    decodeWord 0x00008B10 = .add aluMov312 ∧
    decodeWord 0x00014311 = .addi { immFetch with res := .mov, srcA := .r0 } ∧
    decodeWord 0x02088B12 =
      .extins { res := .mov, exit := false, dst := .r3, srcA := .r1, srcB := .r2, srcBit := 4, size := 8, dstBit := 0,
                bit3 := false } ∧
    decodeWord 0x22008B13 =
      .extshli { res := .mov, exit := false, dst := .r3, srcA := .r1, srcB := .r2, size := 8, dstBit := 4,
                 bit3 := false, bits21to17 := 0 } ∧
    decodeWord 0x02108B14 =
      .extshlr { res := .mov, exit := false, dst := .r3, srcA := .r1, srcB := .r2, srcBit := 8, size := 8,
                 bit3 := false, bits31to27 := 0 } ∧
    decodeWord 0x00009007 = .brz branch2 := by decide

/-- Two words that differ in every bit ADD ignores, and two Unused words. -/
theorem witness_IgnoredBitsChangeNothing :
    (0x00008B10 : Word) ||| ignoredBits 0x00008B10 = 0xFFC08B18 ||| ignoredBits 0x00008B10 ∧
    (0x00000006 : Word) ||| ignoredBits 0x00000006 = 0xFFFFFFFE ||| ignoredBits 0x00000006 := by decide

theorem witness_RegisterZeroIsHardWired : Reg.r7 ≠ .r0 ∧ Reg.r0 ≠ .r7 := by decide

theorem witness_StepRunsTheDecodedWord :
    (harness 0x00008B10 1 2).status = .running ∧ (harness 0x00008B10 1 2).pc.toNat % 4 = 0 ∧
    (harness 0x00008B10 1 2).program[(harness 0x00008B10 1 2).pc.toNat / 4]? = some 0x00008B10 := by decide

/-- The first offset past a one-word program, and a misaligned offset within it. -/
theorem witness_FetchOutsideProgramFaults :
    ({ noneLeft with pc := 4 } : State).status = .running ∧
    ({ noneLeft with pc := 4 } : State).program.length ≤ ({ noneLeft with pc := 4 } : State).pc.toNat / 4 ∧
    ({ noneLeft with pc := 3 } : State).pc.toNat % 4 ≠ 0 := by decide

theorem witness_EndedInvocationStaysAsItIs :
    (idleWith [] []).idle ∧ (idleWith [] []).requests = [] ∧
    ({ idleWith [] [] with status := .faulted .noParams } : State).idle := by decide

/-- An instruction that is no branch, and each annulled branch, taken, outside a delay slot. -/
theorem witness_PcAfterEveryInstruction :
    (∃ t, exec (.addi immFetch) oneLeft = .next t) ∧
    (∃ t, exec (.brzA branch2) { oneLeft with regs := State.reset.regs } = .next t ∧ t.pc = 8) ∧
    ∃ t, exec (.brnzA branch2) { oneLeft with regs := { State.reset.regs with x2 := 1 } } = .next t ∧ t.pc = 8 :=
  ⟨⟨_, rfl⟩, ⟨_, rfl, rfl⟩, ⟨_, rfl, rfl⟩⟩

theorem witness_MovedResults :
    aluMov312.res = .mov ∧ ({ immFetch with res := .mov } : ImmFields).res = .mov := by decide

/-- The last parameter for a fetching form; none needed for another. -/
theorem witness_AluInstructionsComplete :
    parameterLeft oneLeft aluZero.res ∧ parameterLeft noneLeft aluMov312.res :=
  ⟨fun _ => by decide, fun h => by revert h; decide⟩

theorem witness_AddImmediateCompletes : parameterLeft oneLeft immFetch.res := fun _ => by decide

/-- EXTINS's fields (B1), fetching. -/
def insertFetch : InsertFields :=
  { res := .fetchsend, exit := true, dst := .r3, srcA := .r1, srcB := .r2, srcBit := 4, size := 8, dstBit := 0,
    bit3 := false }

theorem witness_ExtractInsertCompletes : parameterLeft oneLeft insertFetch.res := fun _ => by decide

/-- EXTSHLI's and EXTSHLR's fields (B7, B11), fetching. -/
def shiftImmFetch : ShiftImmFields :=
  { res := .fetchsm, exit := false, dst := .r3, srcA := .r1, srcB := .r2, size := 8, dstBit := 4, bit3 := false,
    bits21to17 := 0 }

def shiftRegFetch : ShiftRegFields :=
  { res := .movsmfetchsend, exit := false, dst := .r3, srcA := .r1, srcB := .r2, srcBit := 8, size := 8, bit3 := false,
    bits31to27 := 0 }

/-- Both forms with the last parameter, at a shift amount below 32 and at 32. -/
theorem witness_ExtractShiftsComplete :
    parameterLeft oneLeft shiftImmFetch.res ∧ parameterLeft oneLeft shiftRegFetch.res ∧
    (oneLeft.readReg .r1).toNat ≤ 31 ∧
    parameterLeft { harness 0x00000010 32 9 with cursor := 1 } shiftImmFetch.res ∧
    ¬ (({ harness 0x00000010 32 9 with cursor := 1 } : State).readReg .r1).toNat ≤ 31 :=
  ⟨fun _ => by decide, fun _ => by decide, by decide, fun _ => by decide, by decide⟩

theorem witness_AdmittedReadCompletes :
    readAddress immFetch oneLeft ∉ oneLeft.params.readRefused ∧ parameterLeft oneLeft immFetch.res :=
  ⟨by decide, fun _ => by decide⟩

theorem witness_RefusedReadFaults :
    readAddress immFetch { oneLeft with params := { Params.spec with readRefused := [12] } } ∈
      ({ oneLeft with params := { Params.spec with readRefused := [12] } } : State).params.readRefused := by decide

/-- Every clause at its ends. -/
theorem witness_UnimplementedAluWordsFault :
    [0x00028B10, 0x00068B10, 0x00088B10, 0x000E8B10, 0x001A8B10, 0x003E8B10].map (fun w => (bits w 0 3, bits w 17 5)) =
      [(0, 1), (0, 3), (0, 4), (0, 7), (0, 13), (0, 31)] := by decide

theorem witness_UnusedWordsFault : bits 0x00000006 0 3 = 6 ∧ bits 0xFFFFFFFE 0 3 = 6 := by decide

theorem witness_MissingParameterFaults :
    computes (.addi immFetch) noneLeft = some (ofAddi immFetch noneLeft) ∧
    fetches (ofAddi immFetch noneLeft).res = true ∧ noneLeft.parameters.length ≤ noneLeft.cursor :=
  ⟨rfl, by decide, by decide⟩

theorem witness_MoveToRegisterZeroChangesOnlyTheSequencer :
    resultOp asmNop = some .mov ∧ destination asmNop = some .r0 ∧ (∀ f, asmNop ≠ .read f) ∧
    ¬(noneLeft.seqMode = .delay true ∧ exitFlag asmNop = false) :=
  ⟨rfl, rfl, (fun _ h => by cases h), by decide⟩

theorem witness_ExtractInsertBitByBit : 0 < 32 ∧ 31 < 32 := by decide

theorem witness_RegisterShiftsDrawFrom32On : (31#32).toNat ≤ 31 ∧ 32 ≤ (32#32).toNat := by decide

theorem witness_FetchParameterAdvancesTheCursor :
    oneLeft.parameters[oneLeft.cursor]? = some 9 ∧ noneLeft.parameters.length ≤ noneLeft.cursor := by decide

theorem witness_HaltChecksTheParameters :
    noneLeft.cursor = noneLeft.parameters.length ∧ oneLeft.cursor ≠ oneLeft.parameters.length := by decide

theorem witness_HaltsOnlyAtTheEndOfAnExitChain :
    ∃ t, exec (.add aluMov312) { noneLeft with seqMode := .delay true } = .next t ∧
      ({ noneLeft with seqMode := .delay true } : State).status = .running ∧ t.status = .halted :=
  ⟨_, rfl, rfl, rfl⟩

/-- `r2` zero and not zero, outside a delay slot: the branch forms taken and not. -/
theorem witness_TakenBranchesEnterTheirDelaySlot :
    (harness 0x00000010 7 0).seqMode = .normal ∧ tested branch2 (harness 0x00000010 7 0) = 0 ∧
    noneLeft.seqMode = .normal ∧ tested branch2 noneLeft ≠ 0 := by decide

theorem witness_TakenAnnulledBranchesJump :
    (harness 0x00000010 7 0).seqMode = .normal ∧ tested branch2 (harness 0x00000010 7 0) = 0 ∧
    noneLeft.seqMode = .normal ∧ tested branch2 noneLeft ≠ 0 := by decide

theorem witness_UntakenBranchesFallThrough :
    noneLeft.seqMode = .normal ∧ tested branch2 noneLeft ≠ 0 ∧
    (harness 0x00000010 7 0).seqMode = .normal ∧ tested branch2 (harness 0x00000010 7 0) = 0 := by decide

theorem witness_BranchInDelaySlotFaults :
    ({ noneLeft with seqMode := .delay false } : State).seqMode = .delay false ∧
    ({ noneLeft with seqMode := .delay true } : State).seqMode = .delay true := by decide

/-- Each of the two conditions, the second at the greatest multiple of 8. -/
theorem witness_PseudoBranchIsUnconditional :
    noneLeft.seqMode = .normal ∧ (262136#18).toNat % 8 = 0 ∧
    ({ noneLeft with params := { Params.spec with branchTest := .srcA } } : State).params.branchTest = .srcA := by decide

theorem witness_AgreeingTestFieldsBranchAlike :
    branch2.srcA = regOf (branch2.imm.toNat % 8) ∧
    (Instr.brz branch2 = .brz branch2 ∨ Instr.brz branch2 = .brnz branch2 ∨ Instr.brz branch2 = .brzA branch2 ∨
      Instr.brz branch2 = .brnzA branch2) := by decide

/-- A Move that writes `r3` alone, and a taken branch, which fills the pending slot. -/
theorem witness_InstructionFrame :
    (∃ t, exec (.add aluMov312) noneLeft = .next t) ∧ destination (.add aluMov312) ≠ some .r1 ∧
    writesMethodAddress aluMov312.res = false ∧
    ∃ t, exec (.brz branch2) (harness 0x00000010 7 0) = .next t ∧ t.pending ≠ none :=
  ⟨⟨_, rfl⟩, by decide, by decide, ⟨_, rfl, by decide⟩⟩

theorem witness_TraceOnlyGrows :
    ∃ t, exec (.read { immFetch with res := .movsend }) oneLeft = .next t ∧ t.trace.length = 2 := ⟨_, rfl, by rfl⟩

/-- The same word at the fetch, another one after it. -/
theorem witness_UnfetchedWordsHaveNoEffect :
    noneLeft.status = .running ∧
    ([0x00000010, 0x00000006] : List Word)[noneLeft.pc.toNat / 4]? = noneLeft.program[noneLeft.pc.toNat / 4]? := by
  decide

/-- Two different states. -/
theorem witness_UpperMethodAddressBitsAreUnobservable :
    forgetUpperBits { oneLeft with methodAddress := 0xFFFC1010 } =
      forgetUpperBits { oneLeft with methodAddress := 0x00001010 } ∧
    ({ oneLeft with methodAddress := 0xFFFC1010 } : State) ≠ { oneLeft with methodAddress := 0x00001010 } := by decide

theorem witness_ResetIsInvocationEntry : Reg.r0 ≠ .r1 ∧ Reg.r7 ≠ .r1 := by decide

theorem witness_ExecuteEntersTheInvocation :
    (idleWith [.execute 9 [3, 4]] fixed9).idle ∧
    (idleWith [.execute 9 [3, 4]] fixed9).requests = .execute 9 (3 :: [4]) :: [] ∧
    findMethod (idleWith [.execute 9 [3, 4]] fixed9).methods 9 = fixed9[0]? := by decide

/-- For a fixed method and for one not invoked before. -/
theorem witness_ExecuteFixesAndRunsTheProgram :
    methodsWf fixed9 = true ∧ (idleWith [.execute 9 [3, 4]] fixed9).idle ∧
    (idleWith [.execute 9 [3, 4]] fixed9).requests = .execute 9 (3 :: [4]) :: [] ∧
    findMethod (idleWith [.execute 9 [3, 4]] fixed9).methods 9 = fixed9[0]? ∧
    methodsWf [{ number := 9, uploaded := [0x90], compiled := none }] = true ∧
    (findMethod [{ number := 9, uploaded := [0x90], compiled := none }] 9).isSome = true := by decide

/-- A method without code, and one with code but no parameters. -/
theorem witness_ExecuteThatCannotEnterFaults :
    (idleWith [.execute 8 []] fixed9).idle ∧ (idleWith [.execute 8 []] fixed9).requests = .execute 8 [] :: [] ∧
    findMethod (idleWith [.execute 8 []] fixed9).methods 8 = none ∧
    (idleWith [.execute 9 []] fixed9).requests = .execute 9 [] :: [] ∧
    findMethod (idleWith [.execute 9 []] fixed9).methods 9 ≠ none := by decide

/-- For a method that has code and for one that has none. -/
theorem witness_AddCodeAppendsToItsMethod :
    methodsWf fixed9 = true ∧ (idleWith [.addCode 9 0x10, .addCode 8 0x10] fixed9).idle ∧
    (idleWith [.addCode 9 0x10, .addCode 8 0x10] fixed9).requests = .addCode 9 0x10 :: [.addCode 8 0x10] ∧
    (idleWith [.addCode 8 0x10] fixed9).requests = .addCode 8 0x10 :: [] ∧ (8 : Word) ≠ 9 := by decide

theorem witness_FixedProgramNeverChanges :
    methodsWf (idleWith [.execute 9 [3]] fixed9).methods = true ∧
    fixedProgram (idleWith [.execute 9 [3]] fixed9) 9 = some [0x90, 0x10] ∧
    (idleWith [.execute 9 [3]] fixed9).idle ∧
    (idleWith [.execute 9 [3]] fixed9).requests = .execute 9 (3 :: []) :: [] := by decide

/-- Two ended states that differ in their registers and status; the invocation is entered. -/
theorem witness_InvocationsAreIndependentOfHistory :
    (idleWith [.execute 9 [3]] fixed9).idle ∧
    ({ noneLeft with status := .faulted .noParams, methods := fixed9, requests := [.execute 9 [3]] } : State).idle ∧
    (next (idleWith [.execute 9 [3]] fixed9)).map (fun t => t.status) = some .running := by decide

theorem witness_ObservationIsTraceOutcomeAndHaltedRegisters :
    (idleWith [] []).status = .halted ∧ Reg.r1 ≠ .r0 := by decide

/-- A state with the invariant in a branch's delay slot, which steps. -/
theorem witness_EveryStepKeepsTheInvariant :
    ({ noneLeft with seqMode := .delay false, pending := some 8 } : State).Inv ∧
    (next { noneLeft with seqMode := .delay false, pending := some 8 }).isSome = true := by decide

/-- A state with the invariant that has run past its program. -/
theorem witness_NoMisalignedFetchEverOccurs :
    ({ noneLeft with pc := 4 } : State).Inv ∧
    fetchWord ({ noneLeft with pc := 4 } : State).program ({ noneLeft with pc := 4 } : State).pc = none := by decide

end Sys2Proof.Tests
end

section
/-! The general registers through the state, R21 and R22: what a read gives after a write (O10). -/

namespace Sys2Proof.Machine

open Sys2Proof

/-- Register 0 reads 0 whatever is stored (R21). -/
@[simp] theorem State.readReg_r0 (s : State) : s.readReg .r0 = 0 := RegFile.read_r0 s.regs

/-- A write to register 0 changes no state (R22). -/
@[simp] theorem State.writeReg_r0 (s : State) (v : Word) : s.writeReg .r0 v = s := rfl

theorem State.readReg_writeReg_same (s : State) {d : Reg} (v : Word) (h : d ≠ .r0) :
    (s.writeReg d v).readReg d = v :=
  (RegFile.read_write s.regs d d v).trans (if_pos ⟨rfl, h⟩)

theorem State.readReg_writeReg_ne (s : State) {d r : Reg} (v : Word) (h : r ≠ d) :
    (s.writeReg d v).readReg r = s.readReg r :=
  RegFile.read_write_ne s.regs v h

/-- Settles O10: register 0 by its own two rules, the other registers by the rules for a read after a write; the stored
values and the frame are what the two operations are defined as. -/
theorem registerZeroIsHardWired : Obligations.RegisterZeroIsHardWired := by
  intro s v d r
  have storedValues : [Reg.r1, .r2, .r3, .r4, .r5, .r6, .r7].map s.readReg =
      [s.regs.x1, s.regs.x2, s.regs.x3, s.regs.x4, s.regs.x5, s.regs.x6, s.regs.x7] := rfl
  have frame : s.writeReg d v = { s with regs := (s.writeReg d v).regs } := rfl
  exact ⟨s.readReg_r0, storedValues, s.writeReg_r0 v, frame, s.readReg_writeReg_same v, s.readReg_writeReg_ne v⟩

end Sys2Proof.Machine
end

section
/-! The entry of an invocation: what `enter` leaves in each field (R24, R230), and the step between invocations that gets
there (O49). -/

namespace Sys2Proof.Machine

open Sys2Proof

/-! ## After `enter` -/

@[simp] theorem State.enter_pc (s : State) (program : List Word) (p0 : Word) (rest : List Word) :
    (s.enter program p0 rest).pc = 0 := rfl

@[simp] theorem State.enter_pending (s : State) (program : List Word) (p0 : Word) (rest : List Word) :
    (s.enter program p0 rest).pending = none := rfl

@[simp] theorem State.enter_seqMode (s : State) (program : List Word) (p0 : Word) (rest : List Word) :
    (s.enter program p0 rest).seqMode = .normal := rfl

@[simp] theorem State.enter_methodAddress (s : State) (program : List Word) (p0 : Word) (rest : List Word) :
    (s.enter program p0 rest).methodAddress = 0 := rfl

@[simp] theorem State.enter_cursor (s : State) (program : List Word) (p0 : Word) (rest : List Word) :
    (s.enter program p0 rest).cursor = 1 := rfl

@[simp] theorem State.enter_parameters (s : State) (program : List Word) (p0 : Word) (rest : List Word) :
    (s.enter program p0 rest).parameters = p0 :: rest := rfl

@[simp] theorem State.enter_program (s : State) (program : List Word) (p0 : Word) (rest : List Word) :
    (s.enter program p0 rest).program = program := rfl

@[simp] theorem State.enter_status (s : State) (program : List Word) (p0 : Word) (rest : List Word) :
    (s.enter program p0 rest).status = .running := rfl

@[simp] theorem State.enter_trace (s : State) (program : List Word) (p0 : Word) (rest : List Word) :
    (s.enter program p0 rest).trace = [] := rfl

@[simp] theorem State.enter_methods (s : State) (program : List Word) (p0 : Word) (rest : List Word) :
    (s.enter program p0 rest).methods = s.methods := rfl

@[simp] theorem State.enter_requests (s : State) (program : List Word) (p0 : Word) (rest : List Word) :
    (s.enter program p0 rest).requests = s.requests := rfl

@[simp] theorem State.enter_params (s : State) (program : List Word) (p0 : Word) (rest : List Word) :
    (s.enter program p0 rest).params = s.params := rfl

@[simp] theorem State.enter_draws (s : State) (program : List Word) (p0 : Word) (rest : List Word) :
    (s.enter program p0 rest).draws = s.draws := rfl

/-- Register 1 takes the first parameter, every other register is zeroed (R24). -/
theorem State.readReg_enter (s : State) (program : List Word) (p0 : Word) (rest : List Word) (r : Reg) :
    (s.enter program p0 rest).readReg r = if r = .r1 then p0 else 0 := by
  cases r <;> rfl

/-! ## The step between invocations -/

/-- With no invocation running a step is the idle step (R36, R213). -/
theorem step_of_idle {s : State} (h : s.idle) : step s = .next s.idleStep := by
  rcases step_cases s with ⟨_, hrun, _⟩ | ⟨hrun, _⟩ | ⟨_, hstep⟩
  · exact absurd hrun h
  · exact absurd hrun h
  · exact hstep

/-- The idle step serves the oldest request and consumes it (R233). -/
theorem State.idleStep_of_cons {s : State} {q : Request} {rest : List Request} (h : s.requests = q :: rest) :
    s.idleStep = ({ s with requests := rest } : State).serve q := by
  simp [State.idleStep, h]

/-- Execute of a method that has code, with parameters: the program is fixed and the invocation entered (R230, R52). -/
theorem State.execute_of_code {s : State} {m : Word} {e : MethodEntry} (p0 : Word) (ps : List Word)
    (h : findMethod s.methods m = some e) :
    s.execute m (p0 :: ps) =
      ({ s with methods := putMethod s.methods { e with compiled := some e.program } } : State).enter
        e.program p0 ps := by
  simp [State.execute, h]

/-- The step that enters an invocation, in full. -/
theorem step_enters {s : State} {m p0 : Word} {ps : List Word} {rest : List Request} {e : MethodEntry}
    (hidle : s.idle) (hreq : s.requests = .execute m (p0 :: ps) :: rest) (hcode : findMethod s.methods m = some e) :
    step s = .next
      (({ s with
          requests := rest
          methods := putMethod s.methods { e with compiled := some e.program } } : State).enter e.program p0 ps) := by
  rw [step_of_idle hidle, State.idleStep_of_cons hreq]
  exact congrArg _ (State.execute_of_code (s := { s with requests := rest }) p0 ps hcode)

/-- Settles O49: the step is `enter` after the store's update, and `enter` gives each element its entry value. -/
theorem executeEntersTheInvocation : Obligations.ExecuteEntersTheInvocation := by
  intro s m p0 ps rest e hidle hreq hcode
  have otherRegisters (u : State) (program : List Word) (r : Reg) (hr : r ≠ .r1) :
      (u.enter program p0 ps).readReg r = 0 := by
    rw [State.readReg_enter, if_neg hr]
  exact ⟨_, step_enters hidle hreq hcode, State.enter_status .., State.enter_pc .., State.enter_pending ..,
    State.enter_seqMode .., State.enter_methodAddress .., State.enter_cursor .., State.enter_parameters ..,
    State.enter_trace .., State.readReg_enter .., otherRegisters _ _, State.enter_requests ..⟩

end Sys2Proof.Machine
end

section
/-! The serialized code word (R43): its bytes by number, and the decoder on them (O7). -/

namespace Sys2Proof

/-- A field cut out of a word is the field that the statements read by division. -/
theorem extractLsb'_eq_ofNat_bits (w : Word) (lo n : Nat) :
    w.extractLsb' lo n = BitVec.ofNat n (Spec.bits w lo n) := by
  apply BitVec.eq_of_toNat_eq
  rw [BitVec.extractLsb'_toNat, BitVec.toNat_ofNat, Spec.bits, Nat.mod_mod, Nat.shiftRight_eq_div_pow]

/-- Byte `j` of a serialized word holds bits `8j+7:8j` (R43). -/
theorem bytesOfWord_eq_map_bits (w : Word) :
    bytesOfWord w = [0, 1, 2, 3].map (fun j => BitVec.ofNat 8 (Spec.bits w (8 * j) 8)) := by
  simp [bytesOfWord, extractLsb'_eq_ofNat_bits]

/-- The decoder reads four bytes as the word they make and leaves the bytes after them (R43, R60). -/
theorem decodeBytes_of_four (b0 b1 b2 b3 : Byte) (rest : List Byte) :
    decodeBytes (b0 :: b1 :: b2 :: b3 :: rest) = .ok (decodeWord (wordOfBytes b0 b1 b2 b3), rest) := rfl

/-- The decoder on a serialized word: the four bytes make the word again. -/
theorem decodeBytes_bytesOfWord_append (w : Word) (rest : List Byte) :
    decodeBytes (bytesOfWord w ++ rest) = .ok (decodeWord w, rest) :=
  calc decodeBytes (bytesOfWord w ++ rest)
    _ = .ok (decodeWord (wordOfBytes (w.extractLsb' 0 8) (w.extractLsb' 8 8) (w.extractLsb' 16 8)
          (w.extractLsb' 24 8)), rest) := decodeBytes_of_four ..
    _ = .ok (decodeWord w, rest) := by rw [wordOfBytes_bytesOfWord]

/-- Settles O7: the layout byte by byte, and the decoder on the bytes so laid out. -/
theorem wordsAreSerializedLittleEndian : Obligations.WordsAreSerializedLittleEndian :=
  fun w rest => ⟨bytesOfWord_eq_map_bits w, decodeBytes_bytesOfWord_append w rest⟩

end Sys2Proof
end

section
/-! The results that the statements give by number, each as the machine's operation computes it (R11, R76, R111, R113, R121,
R131), and the state after a fault as the machine raises it. -/

namespace Sys2Proof.Machine

open Sys2Proof Sys2Proof.Spec

theorem addValue_eq (a b : Word) : addValue a b = a + b := by
  apply BitVec.eq_of_toNat_eq
  rw [addValue, BitVec.toNat_ofNat, BitVec.toNat_add, Nat.mod_mod]

theorem ofInt_toNat (a : Word) : BitVec.ofInt 32 (a.toNat : Int) = a := by
  rw [BitVec.ofInt_natCast, BitVec.ofNat_toNat, BitVec.setWidth_eq]

/-- The difference by number is the word that `b` completes to `a`. -/
theorem subValue_eq (a b : Word) : subValue a b = a - b := by
  rw [eq_sub_iff_add_eq]
  calc subValue a b + b
    _ = BitVec.ofInt 32 ((a.toNat : Int) - b.toNat) + BitVec.ofInt 32 b.toNat := by rw [subValue, ofInt_toNat b]
    _ = a := by rw [← BitVec.ofInt_add, sub_add_cancel, ofInt_toNat]

/-- A register plus the immediate by signed number is the sum with the sign-extended word (R71, R121, R141). -/
theorem ofInt_toNat_add_toInt (a : Word) (imm : BitVec 18) :
    BitVec.ofInt 32 ((a.toNat : Int) + imm.toInt) = a + immediate imm := by
  rw [immediate, BitVec.signExtend, BitVec.ofInt_add, ofInt_toNat]

theorem ofAddi_value (f : ImmFields) (s : State) : (ofAddi f s).value = s.readReg f.srcA + immediate f.imm :=
  ofInt_toNat_add_toInt _ _

theorem shiftedRight_eq (x : Word) (n : Nat) : shiftedRight x n = x >>> n := by
  rw [shiftedRight, ← Nat.shiftRight_eq_div_pow, ← BitVec.toNat_ushiftRight, BitVec.ofNat_toNat, BitVec.setWidth_eq]

theorem shiftedLeft_eq (x : Word) (n : Nat) : shiftedLeft x n = x <<< n := by
  rw [shiftedLeft, ← Nat.shiftLeft_eq, ← BitVec.toNat_shiftLeft, BitVec.ofNat_toNat, BitVec.setWidth_eq]

theorem maskOf_eq (size : BitVec 5) : maskOf size = bitfieldMask size := by
  revert size
  decide

theorem ofExtins_value (f : InsertFields) (s : State) :
    (ofExtins f s).value = insertField (s.readReg f.srcA) (s.readReg f.srcB) f.srcBit f.size f.dstBit := by
  simp only [ofExtins, insertField, extractField, maskOf_eq, shiftedRight_eq, shiftedLeft_eq]

theorem State.advance_pc_eq_dispatchPc (s : State) : s.advance.pc = dispatchPc s := by
  rw [State.advance_pc, dispatchPc]
  cases s.pending with
  | some t => rfl
  | none => exact BitVec.eq_of_toNat_eq (by simp [BitVec.toNat_add])

theorem faulted_eq (s : State) (f : Fault) : faulted s f = s.advance.raise f := by
  rw [faulted, ← s.advance_pc_eq_dispatchPc]
  rfl

/-- Settles O23: both arms raise the fault on the advanced state. -/
theorem carryAluInstructionsFault : Obligations.CarryAluInstructionsFault := by
  intro f s
  rw [faulted_eq, faulted_eq]
  exact ⟨exec_addc f s, exec_subb f s⟩

end Sys2Proof.Machine
end

section
/-! The result operation Move (R174): an instruction that reads its operands and moves the result changes `dst` and the
sequencer's part of the state, and no more (O16). -/

namespace Sys2Proof.Machine

open Sys2Proof Sys2Proof.Spec

/-- The sequencer writes the mode and the status alone (R95 to R99, R214). -/
theorem State.sequence_frame (s : State) (flow : Flow) (isExit inDelay haltAfter : Bool) :
    ∃ m st, s.sequence flow isExit inDelay haltAfter = { s with seqMode := m, status := st } := by
  obtain ⟨m, h⟩ | ⟨-, -, -, -, h⟩ := s.sequence_cases flow isExit inDelay haltAfter
  · exact ⟨m, s.status, h⟩
  · obtain ⟨-, hh⟩ | ⟨-, hh⟩ := s.halt_cases
    · exact ⟨s.seqMode, .halted, h.trans hh⟩
    · exact ⟨s.seqMode, .faulted _, h.trans hh⟩

/-- What `dst` reads after a write to it: register 0 holds nothing (R21, R22). -/
theorem State.readReg_writeReg_dst (s : State) (d : Reg) (v : Word) :
    (s.writeReg d v).readReg d = if d = .r0 then 0 else v := by
  split
  case isTrue h => rw [h, State.readReg_r0]
  case isFalse h => exact s.readReg_writeReg_same v h

/-- Move after a result that changed no state: the write to `dst` on the advanced state, then the sequencer (R90, R174). -/
theorem runResult_mov (i : Instr) (x : Bool) (d : Reg) (value : State → Word) (s : State) :
    runResult i x .mov d (fun _ s1 => .ok (value s1, s1)) s =
      .next ((s.advance.writeReg d (value s.advance)).sequence .cont x s.inDelay s.haltAfter) := rfl

theorem moves_of_exec_eq_runResult {i : Instr} {s : State} {x : Bool} {ro : ResultOp} {d : Reg} {value : State → Word}
    (hro : ro = .mov) (h : exec i s = runResult i x ro d (fun _ s1 => .ok (value s1, s1)) s) :
    moves i s d (value s.advance) := by
  subst hro
  rw [runResult_mov] at h
  obtain ⟨m, st, hseq⟩ := (s.advance.writeReg d (value s.advance)).sequence_frame .cont x s.inDelay s.haltAfter
  rw [hseq] at h
  exact ⟨_, h, s.advance.readReg_writeReg_dst d _, fun r hr => s.advance.readReg_writeReg_ne _ hr, rfl, rfl, rfl⟩

/-- An ALU instruction with the result operation Move (R110, R174). -/
theorem moves_of_exec_eq_runAlu {i : Instr} {f : AluFields} {alu : Word → Word → Word} {s : State}
    (hres : f.res = .mov) (h : exec i s = runAlu i f alu s) :
    moves i s f.dst (alu (s.readReg f.srcA) (s.readReg f.srcB)) :=
  moves_of_exec_eq_runResult (value := fun s1 => alu (s1.readReg f.srcA) (s1.readReg f.srcB)) hres h

/-- Settles O16: every instruction named moves what its operation computes, which is the value that the statement gives by
number. -/
theorem movedResults : Obligations.MovedResults := by
  refine ⟨fun f s hres => ?_, fun f s hres => ?_, fun f s hres => ?_⟩
  · rw [addValue_eq, subValue_eq]
    exact ⟨moves_of_exec_eq_runAlu hres (exec_add f s), moves_of_exec_eq_runAlu hres (exec_sub f s),
      moves_of_exec_eq_runAlu hres (exec_xor f s), moves_of_exec_eq_runAlu hres (exec_or f s),
      moves_of_exec_eq_runAlu hres (exec_and f s), moves_of_exec_eq_runAlu hres (exec_andn f s),
      moves_of_exec_eq_runAlu hres (exec_nand f s)⟩
  · rw [ofAddi_value]
    exact moves_of_exec_eq_runResult (value := fun s1 => s1.readReg f.srcA + immediate f.imm) hres (exec_addi f s)
  · rw [ofExtins_value]
    exact moves_of_exec_eq_runResult
      (value := fun s1 => insertField (s1.readReg f.srcA) (s1.readReg f.srcB) f.srcBit f.size f.dstBit)
      hres (exec_extins f s)

end Sys2Proof.Machine
end

section
/-! A branch in a delay slot (R150): the advance, then the fault, before any register is read (O41). -/

namespace Sys2Proof.Machine

open Sys2Proof Sys2Proof.Spec

/-- Either delay mode, of a taken branch or of an exit, makes the step a delay-slot step (R90). -/
theorem State.inDelay_of_seqMode_delay {s : State} {haltAfter : Bool} (h : s.seqMode = .delay haltAfter) :
    s.inDelay = true := by
  simp [State.inDelay, h]

/-- A branch in a delay-slot step faults whatever it tests and whatever it would do when taken (R150): of the three things
that a branch can do, the other two happen outside a delay slot. -/
theorem runBranch_of_inDelay {s : State} (hd : s.inDelay = true) (i : Instr) (c : BranchCondition) (f : BranchFields)
    (taken : State → Word → Flow × State) :
    runBranch i c f taken s = .next (faulted s (.branchInDelaySlot (encode i) s.pc)) := by
  rw [faulted_eq]
  obtain ⟨-, hfault⟩ | ⟨hnot, -, -⟩ | ⟨hnot, -, -⟩ := runBranch_cases i c f taken s
  · exact hfault
  · exact absurd hd (Bool.eq_false_iff.mp hnot)
  · exact absurd hd (Bool.eq_false_iff.mp hnot)

/-- Settles O41: all four branches are `runBranch`, which faults in a delay-slot step. -/
theorem branchInDelaySlotFaults : Obligations.BranchInDelaySlotFaults := by
  intro f s haltAfter hmode
  have hd : s.inDelay = true := State.inDelay_of_seqMode_delay hmode
  rw [exec_brz, exec_brnz, exec_brzA, exec_brnzA]
  exact ⟨runBranch_of_inDelay hd .., runBranch_of_inDelay hd .., runBranch_of_inDelay hd .., runBranch_of_inDelay hd ..⟩

end Sys2Proof.Machine
end

section
/-! The method-address register (R30, R31, R172, R181, R182): its two fields by number, SetMethod (O33), and Send with the
advance of the address (O34). -/

namespace Sys2Proof.Machine

open Sys2Proof

/-- The address field by number, bits 11:0 (R30). -/
theorem addressField_toNat (ma : Word) : (addressField ma).toNat = ma.toNat % 4096 := by
  rw [addressField, BitVec.extractLsb'_toNat, Nat.shiftRight_zero]

/-- The increment field by number, bits 17:12 (R31). -/
theorem incrementField_toNat (ma : Word) : (incrementField ma).toNat = ma.toNat / 4096 % 64 := by
  rw [incrementField, BitVec.extractLsb'_toNat, Nat.shiftRight_eq_div_pow]

/-- The bits above the address field by number, bits 31:12. -/
theorem extractLsb'_above_address_toNat (ma : Word) : (ma.extractLsb' 12 20).toNat = ma.toNat / 4096 := by
  rw [BitVec.extractLsb'_toNat, Nat.shiftRight_eq_div_pow]
  omega

/-- Settles O33: `setMethod` is the update of the one field, and the two fields of the value are read by number. -/
theorem setMethodWritesTheWholeRegister : Obligations.SetMethodWritesTheWholeRegister :=
  fun _ v => ⟨rfl, addressField_toNat v, incrementField_toNat v⟩

/-- The address field zero-extended, as the event carries it (R181). -/
theorem addressField_setWidth_eq_ofNat (ma : Word) :
    (addressField ma).setWidth 32 = BitVec.ofNat 32 (ma.toNat % 4096) := by
  rw [← addressField_toNat, BitVec.ofNat_toNat]

/-- The mask of the advance keeps bits 31:12 where they stand. -/
theorem and_above_address (ma : Word) : ma &&& 0xFFFFF000#32 = placeAt 12 (ma.extractLsb' 12 20) := by
  apply BitVec.eq_of_getLsbD_eq
  intro k hk
  interval_cases k <;> simp [placeAt]

/-- The advanced register as two fields side by side: bits 31:12 as they were, below them the new address (R182). -/
theorem advanceAddress_eq_placeAt (ma : Word) :
    advanceAddress ma =
      placeAt 12 (ma.extractLsb' 12 20) ||| placeAt 0 (addressField ma + (incrementField ma).setWidth 12) := by
  rw [advanceAddress, and_above_address, placeAt, placeAt, BitVec.shiftLeft_zero]

/-- The advance leaves bits 31:12 alone (R182). -/
theorem extractLsb'_above_address_advanceAddress (ma : Word) :
    (advanceAddress ma).extractLsb' 12 20 = ma.extractLsb' 12 20 := by
  rw [advanceAddress_eq_placeAt, BitVec.extractLsb'_or, extract_placeAt_same _ _ (by decide),
    extract_placeAt_apart _ _ _ _ (by decide)]
  exact BitVec.or_zero

/-- The advance adds the increment to the address in 12 bits (R182). -/
theorem addressField_advanceAddress (ma : Word) :
    addressField (advanceAddress ma) = addressField ma + (incrementField ma).setWidth 12 := by
  rw [addressField, advanceAddress_eq_placeAt, BitVec.extractLsb'_or, extract_placeAt_same _ _ (by decide),
    extract_placeAt_apart _ _ _ _ (by decide)]
  exact BitVec.zero_or

theorem advanceAddress_div (ma : Word) : (advanceAddress ma).toNat / 4096 = ma.toNat / 4096 := by
  rw [← extractLsb'_above_address_toNat, extractLsb'_above_address_advanceAddress, extractLsb'_above_address_toNat]

/-- The increment stands in the bits that the advance leaves alone. -/
theorem incrementField_advanceAddress (ma : Word) : incrementField (advanceAddress ma) = incrementField ma := by
  apply BitVec.eq_of_toNat_eq
  rw [incrementField_toNat, incrementField_toNat, advanceAddress_div]

theorem addressField_advanceAddress_toNat (ma : Word) :
    (addressField (advanceAddress ma)).toNat = ((addressField ma).toNat + (incrementField ma).toNat) % 4096 := by
  rw [addressField_advanceAddress, BitVec.toNat_add, BitVec.toNat_setWidth, Nat.add_mod_mod]

/-- Settles O34: the event at the zero-extended address field, then the advance field by field. -/
theorem sendWritesThenAdvances : Obligations.SendWritesThenAdvances := by
  intro s v
  refine ⟨?frame, addressField_advanceAddress_toNat _, incrementField_advanceAddress _, advanceAddress_div _⟩
  case frame =>
    rw [← addressField_setWidth_eq_ofNat]
    rfl

end Sys2Proof.Machine
end

section
/-! FetchParameter and the cursor (R171): the parameter returned, the value dropped at register 0, the overrun (O32). -/

namespace Sys2Proof.Machine

open Sys2Proof

/-- A fetch into a register, with a parameter left: the write follows the cursor's advance (R173). -/
theorem State.fetchInto_ok {s t : State} {site : Site} {v : Word} (d : Reg) (h : s.fetchParameter site = .ok (v, t)) :
    s.fetchInto site d = .ok (t.writeReg d v) := by
  rw [State.fetchInto, h]

/-- Settles O32: both ends of FetchParameter by its own two rules; into register 0 the advance stands and the write changes
nothing (R22). -/
theorem fetchParameterAdvancesTheCursor : Obligations.FetchParameterAdvancesTheCursor := by
  intro s site
  refine ⟨fun v hv => ?_, s.fetchParameter_error site⟩
  obtain ⟨hlt, rfl⟩ := List.getElem?_eq_some_iff.mp hv
  have hfetch := s.fetchParameter_ok site hlt
  exact ⟨hfetch, (State.fetchInto_ok .r0 hfetch).trans (congrArg Except.ok (State.writeReg_r0 _ _))⟩

end Sys2Proof.Machine
end

section
/-! The decoder by operation: one equation for each value of `operation` (R78) and of `alu_operation` (R79). -/

namespace Sys2Proof

theorem decodeWord_of_alu {w : Word} (h : operationField w = 0) :
    decodeWord w = decodeAlu (field21to17 w) (aluFields w) := by
  rw [decodeWord, h]; rfl

theorem decodeWord_of_addi {w : Word} (h : operationField w = 1) : decodeWord w = .addi (immFields w) := by
  rw [decodeWord, h]; rfl

theorem decodeWord_of_extins {w : Word} (h : operationField w = 2) : decodeWord w = .extins (insertFields w) := by
  rw [decodeWord, h]; rfl

theorem decodeWord_of_extshli {w : Word} (h : operationField w = 3) :
    decodeWord w = .extshli (shiftImmFields w) := by
  rw [decodeWord, h]; rfl

theorem decodeWord_of_extshlr {w : Word} (h : operationField w = 4) :
    decodeWord w = .extshlr (shiftRegFields w) := by
  rw [decodeWord, h]; rfl

theorem decodeWord_of_read {w : Word} (h : operationField w = 5) : decodeWord w = .read (immFields w) := by
  rw [decodeWord, h]; rfl

theorem decodeWord_of_unused {w : Word} (h : operationField w = 6) :
    decodeWord w = .unused (w.extractLsb' 3 29) := by
  rw [decodeWord, h]; rfl

theorem decodeWord_of_branch {w : Word} (h : operationField w = 7) :
    decodeWord w = decodeBranch (conditionField w) (annulField w) (branchFields w) := by
  rw [decodeWord, h]; rfl

/-- The operations by value, as the cases they are (R78). -/
theorem operation_cases (b : BitVec 3) :
    b = 0 ∨ b = 1 ∨ b = 2 ∨ b = 3 ∨ b = 4 ∨ b = 5 ∨ b = 6 ∨ b = 7 := by
  revert b; decide

/-- A word's operation with the instruction it decodes to (R78). -/
inductive DecodesAs (w : Word) : Instr → Prop where
  | alu (h : operationField w = 0) : DecodesAs w (decodeAlu (field21to17 w) (aluFields w))
  | addi (h : operationField w = 1) : DecodesAs w (.addi (immFields w))
  | extins (h : operationField w = 2) : DecodesAs w (.extins (insertFields w))
  | extshli (h : operationField w = 3) : DecodesAs w (.extshli (shiftImmFields w))
  | extshlr (h : operationField w = 4) : DecodesAs w (.extshlr (shiftRegFields w))
  | read (h : operationField w = 5) : DecodesAs w (.read (immFields w))
  | unused (h : operationField w = 6) : DecodesAs w (.unused (w.extractLsb' 3 29))
  | branch (h : operationField w = 7) :
      DecodesAs w (decodeBranch (conditionField w) (annulField w) (branchFields w))

theorem decodesAs_decodeWord (w : Word) : DecodesAs w (decodeWord w) := by
  obtain h | h | h | h | h | h | h | h := operation_cases (operationField w)
  · exact decodeWord_of_alu h ▸ .alu h
  · exact decodeWord_of_addi h ▸ .addi h
  · exact decodeWord_of_extins h ▸ .extins h
  · exact decodeWord_of_extshli h ▸ .extshli h
  · exact decodeWord_of_extshlr h ▸ .extshlr h
  · exact decodeWord_of_read h ▸ .read h
  · exact decodeWord_of_unused h ▸ .unused h
  · exact decodeWord_of_branch h ▸ .branch h

/-- The sub-operation of an ALU instruction with its reserved ranges (R79, R83). -/
inductive DecodesAluAs (op : BitVec 5) (f : AluFields) : Instr → Prop where
  | add (h : op = 0#5) : DecodesAluAs op f (.add f)
  | addc (h : op = 1#5) : DecodesAluAs op f (.addc f)
  | sub (h : op = 2#5) : DecodesAluAs op f (.sub f)
  | subb (h : op = 3#5) : DecodesAluAs op f (.subb f)
  | rsvd4to7 (h : 4 ≤ op.toNat ∧ op.toNat ≤ 7) : DecodesAluAs op f (.aluRsvd4to7 op f)
  | xor (h : op = 8#5) : DecodesAluAs op f (.xor f)
  | or (h : op = 9#5) : DecodesAluAs op f (.or f)
  | and (h : op = 10#5) : DecodesAluAs op f (.and f)
  | andn (h : op = 11#5) : DecodesAluAs op f (.andn f)
  | nand (h : op = 12#5) : DecodesAluAs op f (.nand f)
  | rsvd13 (h : op = 13#5) : DecodesAluAs op f (.aluRsvd13 f)
  | rsvd14to15 (h : 14 ≤ op.toNat ∧ op.toNat ≤ 15) : DecodesAluAs op f (.aluRsvd14to15 op f)
  | rsvd16to31 (h : 16 ≤ op.toNat) : DecodesAluAs op f (.aluRsvd16to31 op f)

theorem decodesAluAs_decodeAlu (op : BitVec 5) (f : AluFields) : DecodesAluAs op f (decodeAlu op f) := by
  unfold decodeAlu
  split
  case h_1 h => exact .add (BitVec.eq_of_toNat_eq h)
  case h_2 h => exact .addc (BitVec.eq_of_toNat_eq h)
  case h_3 h => exact .sub (BitVec.eq_of_toNat_eq h)
  case h_4 h => exact .subb (BitVec.eq_of_toNat_eq h)
  case h_5 h => exact .rsvd4to7 (by omega)
  case h_6 h => exact .rsvd4to7 (by omega)
  case h_7 h => exact .rsvd4to7 (by omega)
  case h_8 h => exact .rsvd4to7 (by omega)
  case h_9 h => exact .xor (BitVec.eq_of_toNat_eq h)
  case h_10 h => exact .or (BitVec.eq_of_toNat_eq h)
  case h_11 h => exact .and (BitVec.eq_of_toNat_eq h)
  case h_12 h => exact .andn (BitVec.eq_of_toNat_eq h)
  case h_13 h => exact .nand (BitVec.eq_of_toNat_eq h)
  case h_14 h => exact .rsvd13 (BitVec.eq_of_toNat_eq h)
  case h_15 h => exact .rsvd14to15 (by omega)
  case h_16 h => exact .rsvd14to15 (by omega)
  case h_17 => exact .rsvd16to31 (by simp only [imp_false] at *; omega)

theorem decodeAlu_rsvd4to7 {op : BitVec 5} (f : AluFields) (h : 4 ≤ op.toNat ∧ op.toNat ≤ 7) :
    decodeAlu op f = .aluRsvd4to7 op f := by
  have hop : op.toNat = 4 ∨ op.toNat = 5 ∨ op.toNat = 6 ∨ op.toNat = 7 := by omega
  obtain hop | hop | hop | hop := hop <;> simp only [decodeAlu, hop]

theorem decodeAlu_rsvd14to15 {op : BitVec 5} (f : AluFields) (h : 14 ≤ op.toNat ∧ op.toNat ≤ 15) :
    decodeAlu op f = .aluRsvd14to15 op f := by
  have hop : op.toNat = 14 ∨ op.toNat = 15 := by omega
  obtain hop | hop := hop <;> simp only [decodeAlu, hop]

theorem decodeAlu_rsvd16to31 {op : BitVec 5} (f : AluFields) (h : 16 ≤ op.toNat) :
    decodeAlu op f = .aluRsvd16to31 op f := by
  unfold decodeAlu
  split
  case h_17 => rfl
  all_goals omega

end Sys2Proof
end

section
/-! Decode and encode are inverse: the encoder puts back the fields of a word in place (O3), and every field placed by
the encoder is read back (O2). -/

namespace Sys2Proof

/-! ## From a word and back -/

/-- The bits below `k` and the field that stands at `k`, placed, are one field more. -/
theorem placeAt_join_low (w : Word) (k m : Nat) :
    placeAt 0 (w.extractLsb' 0 k) ||| placeAt k (w.extractLsb' k m) = placeAt 0 (w.extractLsb' 0 (k + m)) := by
  simpa only [Nat.zero_add] using placeAt_join w 0 k m

/-- The fields common to nearly every operation are the word's bits 10:0. -/
theorem encodeLow_fields {w : Word} {operation : BitVec 3} (h : operationField w = operation) :
    encodeLow operation (bitField w 3) (resultField w) (exitField w) (dstField w) =
      placeAt 0 (w.extractLsb' 0 11) := by
  subst h
  simp only [encodeLow, operationField, resultField, exitField, dstField, Reg.toBits_ofBits, ResultOp.toBits_ofBits,
    ofBool_bitField, placeAt_join_low, Nat.reduceAdd]

theorem encodeAlu_fields {w : Word} (h : operationField w = 0) : encodeAlu (field21to17 w) (aluFields w) = w := by
  simp only [encodeAlu, aluFields, encodeLow_fields h, srcAField, srcBField, field21to17,
    Reg.toBits_ofBits, placeAt_join_low, Nat.reduceAdd, placeAt_whole]

theorem encodeImm_fields {w : Word} {operation : BitVec 3} (h : operationField w = operation) :
    encodeImm operation (immFields w) = w := by
  simp only [encodeImm, immFields, encodeLow_fields h, srcAField, immField, Reg.toBits_ofBits, placeAt_join_low,
    Nat.reduceAdd, placeAt_whole]

theorem encodeInsert_fields {w : Word} (h : operationField w = 2) : encodeInsert (insertFields w) = w := by
  simp only [encodeInsert, insertFields, encodeLow_fields h, srcAField, srcBField, field21to17, sizeField,
    field31to27, Reg.toBits_ofBits, placeAt_join_low, Nat.reduceAdd, placeAt_whole]

theorem encodeShiftImm_fields {w : Word} (h : operationField w = 3) : encodeShiftImm (shiftImmFields w) = w := by
  simp only [encodeShiftImm, shiftImmFields, encodeLow_fields h, srcAField, srcBField, field21to17, sizeField,
    field31to27, Reg.toBits_ofBits, placeAt_join_low, Nat.reduceAdd, placeAt_whole]

theorem encodeShiftReg_fields {w : Word} (h : operationField w = 4) : encodeShiftReg (shiftRegFields w) = w := by
  simp only [encodeShiftReg, shiftRegFields, encodeLow_fields h, srcAField, srcBField, field21to17, sizeField,
    field31to27, Reg.toBits_ofBits, placeAt_join_low, Nat.reduceAdd, placeAt_whole]

theorem encode_unused_field {w : Word} (h : operationField w = 6#3) : encode (.unused (w.extractLsb' 3 29)) = w := by
  rw [encode, ← h, operationField, placeAt_join_low, placeAt_whole]

theorem encodeBranch_fields {w : Word} (h : operationField w = 7#3) :
    encodeBranch (annulField w) (bitField w 4) (branchFields w) = w := by
  rw [encodeBranch, ← h]
  simp only [branchFields, operationField, annulField, exitField, srcAField, immField, Reg.toBits_ofBits,
    ofBool_bitField, placeAt_join_low, Nat.reduceAdd, placeAt_whole]

/-- The two branch bits choose the constructor that the encoder gives those bits (R65, R66, R81). -/
theorem encode_decodeBranch (w : Word) (annul : Bool) (f : BranchFields) :
    encode (decodeBranch (conditionField w) annul f) = encodeBranch annul (bitField w 4) f := by
  unfold conditionField
  cases bitField w 4 <;> cases annul <;> rfl

theorem encode_decodeAlu (op : BitVec 5) (f : AluFields) : encode (decodeAlu op f) = encodeAlu op f := by
  have hd := decodesAluAs_decodeAlu op f
  generalize decodeAlu op f = i at hd ⊢
  cases hd with
  | rsvd4to7 | rsvd14to15 | rsvd16to31 => rfl
  | _ => subst op; rfl

/-- A decoded ALU instruction holds a value of its own row where the row is a range (R83). -/
theorem decodeAlu_wf (op : BitVec 5) (f : AluFields) : (decodeAlu op f).wf = true := by
  have hd := decodesAluAs_decodeAlu op f
  generalize decodeAlu op f = i at hd ⊢
  cases hd with
  | rsvd4to7 h => exact decide_eq_true h
  | rsvd14to15 h => exact decide_eq_true h
  | rsvd16to31 h => exact decide_eq_true h
  | _ => rfl

theorem decodeBranch_wf (c : BranchCondition) (annul : Bool) (f : BranchFields) :
    (decodeBranch c annul f).wf = true := by
  cases c <;> cases annul <;> rfl

theorem decodeWord_wf (w : Word) : (decodeWord w).wf = true := by
  have hd := decodesAs_decodeWord w
  generalize decodeWord w = i at hd ⊢
  cases hd with
  | alu => exact decodeAlu_wf ..
  | branch => exact decodeBranch_wf ..
  | _ => rfl

theorem encode_decodeWord (w : Word) : encode (decodeWord w) = w := by
  have hd := decodesAs_decodeWord w
  generalize decodeWord w = i at hd ⊢
  cases hd with
  | alu h => rw [encode_decodeAlu, encodeAlu_fields h]
  | addi h => exact encodeImm_fields h
  | extins h => exact encodeInsert_fields h
  | extshli h => exact encodeShiftImm_fields h
  | extshlr h => exact encodeShiftReg_fields h
  | read h => exact encodeImm_fields h
  | unused h => exact encode_unused_field h
  | branch h => rw [encode_decodeBranch, encodeBranch_fields h]

/-- Settles O3: each operation's fields, put back, join to the whole word. -/
theorem encodeOfDecodeIsIdentity : Obligations.EncodeOfDecodeIsIdentity :=
  fun w => ⟨decodeWord_wf w, encode_decodeWord w⟩

/-! ## From an instruction and back -/

theorem decodeWord_encodeAlu (op : BitVec 5) (f : AluFields) : decodeWord (encodeAlu op f) = decodeAlu op f := by
  rw [decodeWord_of_alu (Laws.TableRow.encodeAlu_operation op f), field21to17, Laws.TableRow.encodeAlu_op]
  congr 1
  simp [aluFields, resultField, exitField, dstField, srcAField, srcBField, bitField, encodeAlu, encodeLow,
    BitVec.extractLsb'_or, extract_placeAt_apart]

theorem operationField_encodeImm (operation : BitVec 3) (f : ImmFields) :
    operationField (encodeImm operation f) = operation := by
  simp [operationField, encodeImm, encodeLow, BitVec.extractLsb'_or, extract_placeAt_apart]

theorem immFields_encodeImm (operation : BitVec 3) (f : ImmFields) : immFields (encodeImm operation f) = f := by
  simp [immFields, resultField, exitField, dstField, srcAField, immField, bitField, encodeImm, encodeLow,
    BitVec.extractLsb'_or, extract_placeAt_apart]

theorem decodeWord_encodeInsert (f : InsertFields) : decodeWord (encodeInsert f) = .extins f := by
  have hop : operationField (encodeInsert f) = 2 := by
    simp [operationField, encodeInsert, encodeLow, BitVec.extractLsb'_or, extract_placeAt_apart]
  rw [decodeWord_of_extins hop]
  simp [insertFields, resultField, exitField, dstField, srcAField, srcBField, field21to17, sizeField, field31to27,
    bitField, encodeInsert, encodeLow, BitVec.extractLsb'_or, extract_placeAt_apart]

theorem decodeWord_encodeShiftImm (f : ShiftImmFields) : decodeWord (encodeShiftImm f) = .extshli f := by
  have hop : operationField (encodeShiftImm f) = 3 := by
    simp [operationField, encodeShiftImm, encodeLow, BitVec.extractLsb'_or, extract_placeAt_apart]
  rw [decodeWord_of_extshli hop]
  simp [shiftImmFields, resultField, exitField, dstField, srcAField, srcBField, field21to17, sizeField, field31to27,
    bitField, encodeShiftImm, encodeLow, BitVec.extractLsb'_or, extract_placeAt_apart]

theorem decodeWord_encodeShiftReg (f : ShiftRegFields) : decodeWord (encodeShiftReg f) = .extshlr f := by
  have hop : operationField (encodeShiftReg f) = 4 := by
    simp [operationField, encodeShiftReg, encodeLow, BitVec.extractLsb'_or, extract_placeAt_apart]
  rw [decodeWord_of_extshlr hop]
  simp [shiftRegFields, resultField, exitField, dstField, srcAField, srcBField, field21to17, sizeField, field31to27,
    bitField, encodeShiftReg, encodeLow, BitVec.extractLsb'_or, extract_placeAt_apart]

theorem decodeWord_encode_unused (b : BitVec 29) : decodeWord (encode (.unused b)) = .unused b := by
  have hop : operationField (encode (.unused b)) = 6 := by
    simp [operationField, encode, BitVec.extractLsb'_or, extract_placeAt_apart]
  rw [decodeWord_of_unused hop]
  simp [encode, BitVec.extractLsb'_or, extract_placeAt_apart]

theorem decodeWord_encodeBranch (annul notZero : Bool) (f : BranchFields) :
    decodeWord (encodeBranch annul notZero f) = decodeBranch (if notZero then .notZero else .zero) annul f := by
  have hop : operationField (encodeBranch annul notZero f) = 7 := by
    simp [operationField, encodeBranch, BitVec.extractLsb'_or, extract_placeAt_apart]
  rw [decodeWord_of_branch hop]
  congr 1 <;>
    simp [conditionField, annulField, branchFields, exitField, srcAField, immField, bitField, encodeBranch,
      BitVec.extractLsb'_or, extract_placeAt_apart]

/-- Settles O2: by format, every field is read back where the encoder placed it; a reserved ALU word comes back to its
own row because its sub-operation lies in the row's range. -/
theorem decodeOfEncodeIsIdentity : Obligations.DecodeOfEncodeIsIdentity := by
  intro i hwf
  cases i with
  | aluRsvd4to7 op f => exact (decodeWord_encodeAlu op f).trans (decodeAlu_rsvd4to7 f (of_decide_eq_true hwf))
  | aluRsvd14to15 op f => exact (decodeWord_encodeAlu op f).trans (decodeAlu_rsvd14to15 f (of_decide_eq_true hwf))
  | aluRsvd16to31 op f => exact (decodeWord_encodeAlu op f).trans (decodeAlu_rsvd16to31 f (of_decide_eq_true hwf))
  | addi f =>
    exact (decodeWord_of_addi (operationField_encodeImm 1 f)).trans (congrArg _ (immFields_encodeImm 1 f))
  | read f =>
    exact (decodeWord_of_read (operationField_encodeImm 5 f)).trans (congrArg _ (immFields_encodeImm 5 f))
  | extins f => exact decodeWord_encodeInsert f
  | extshli f => exact decodeWord_encodeShiftImm f
  | extshlr f => exact decodeWord_encodeShiftReg f
  | unused b => exact decodeWord_encode_unused b
  | brz f => exact decodeWord_encodeBranch false false f
  | brnz f => exact decodeWord_encodeBranch false true f
  | brzA f => exact decodeWord_encodeBranch true false f
  | brnzA f => exact decodeWord_encodeBranch true true f
  | _ f => exact decodeWord_encodeAlu _ f

end Sys2Proof
end

section
/-! The opcode table's rows: a word's own row is the one row it matches (O4). -/

namespace Sys2Proof

open Sys2Proof.Spec

/-! ## A word that matches a row decodes to that row -/

/-- A field that a row's mask fixes holds the row's value. -/
theorem extractLsb'_of_and_eq {w m v : Word} {lo n : Nat} (h : w &&& m = v)
    (hm : m.extractLsb' lo n = BitVec.allOnes n) : w.extractLsb' lo n = v.extractLsb' lo n := by
  rw [← h, BitVec.extractLsb'_and, hm, BitVec.and_allOnes]

theorem extractLsb'_toNat_eq_bits (w : Word) (lo n : Nat) : (w.extractLsb' lo n).toNat = bits w lo n := by
  rw [BitVec.extractLsb'_toNat, bits, Nat.shiftRight_eq_div_pow]

theorem field21to17_toNat (w : Word) : (field21to17 w).toNat = bits w 17 5 := extractLsb'_toNat_eq_bits w 17 5

theorem bits_of_and_eq {w m v : Word} {lo n : Nat} (h : w &&& m = v) (hm : m.extractLsb' lo n = BitVec.allOnes n) :
    bits w lo n = bits v lo n := by
  rw [← extractLsb'_toNat_eq_bits, ← extractLsb'_toNat_eq_bits, extractLsb'_of_and_eq h hm]

/-- The rows that fix `operation` alone (R78). -/
theorem operationField_of_row {w v : Word} (h : w &&& 0x00000007#32 = v) : operationField w = v.extractLsb' 0 3 :=
  extractLsb'_of_and_eq h (by decide)

/-- The rows that fix `operation` and the whole of `alu_operation` (R79). -/
theorem decodeWord_of_alu_row {w v : Word} (op : BitVec 5) (h : w &&& 0x003E0007#32 = v)
    (hop : v.extractLsb' 0 3 = 0) (halu : v.extractLsb' 17 5 = op) : decodeWord w = decodeAlu op (aluFields w) := by
  have hop : operationField w = 0 := (extractLsb'_of_and_eq h (by decide)).trans hop
  have halu : field21to17 w = op := (extractLsb'_of_and_eq h (by decide)).trans halu
  rw [decodeWord_of_alu hop, halu]

/-- The rows of the four branches: `branch_condition` and `branch_annul` (R81). -/
theorem decodeWord_of_branch_row {w v : Word} (c : BranchCondition) (annul : Bool) (h : w &&& 0x00000037#32 = v)
    (hop : v.extractLsb' 0 3 = 7) (hc : conditionField v = c) (ha : annulField v = annul) :
    decodeWord w = decodeBranch c annul (branchFields w) := by
  have hop : operationField w = 7 := (extractLsb'_of_and_eq h (by decide)).trans hop
  have hcond : w.extractLsb' 4 1 = v.extractLsb' 4 1 := extractLsb'_of_and_eq h (by decide)
  have hannul : w.extractLsb' 5 1 = v.extractLsb' 5 1 := extractLsb'_of_and_eq h (by decide)
  rw [decodeWord_of_branch hop, ← hc, ← ha, conditionField, annulField, bitField, bitField, hcond, hannul]
  rfl

/-- A word that matches the row of an instruction decodes to an instruction of that row. -/
theorem tableRow_decodeWord_of_matches {w : Word} {i : Instr} (h : w &&& (tableRow i).1 = (tableRow i).2) :
    tableRow (decodeWord w) = tableRow i := by
  cases i with
  | aluRsvd4to7 op f =>
    have h : w &&& 0x00380007#32 = 0x00080000#32 := h
    have hop : operationField w = 0#3 := extractLsb'_of_and_eq h (by decide)
    have hpart : bits w 19 3 = 1 := bits_of_and_eq h (by decide)
    have halu : 4 ≤ (field21to17 w).toNat ∧ (field21to17 w).toNat ≤ 7 := by
      rw [field21to17_toNat]
      simp only [bits] at hpart ⊢
      omega
    rw [decodeWord_of_alu hop, decodeAlu_rsvd4to7 _ halu]
    rfl
  | aluRsvd14to15 op f =>
    have h : w &&& 0x003C0007#32 = 0x001C0000#32 := h
    have hop : operationField w = 0#3 := extractLsb'_of_and_eq h (by decide)
    have hpart : bits w 18 4 = 7 := bits_of_and_eq h (by decide)
    have halu : 14 ≤ (field21to17 w).toNat ∧ (field21to17 w).toNat ≤ 15 := by
      rw [field21to17_toNat]
      simp only [bits] at hpart ⊢
      omega
    rw [decodeWord_of_alu hop, decodeAlu_rsvd14to15 _ halu]
    rfl
  | aluRsvd16to31 op f =>
    have h : w &&& 0x00200007#32 = 0x00200000#32 := h
    have hop : operationField w = 0#3 := extractLsb'_of_and_eq h (by decide)
    have hpart : bits w 21 1 = 1 := bits_of_and_eq h (by decide)
    have halu : 16 ≤ (field21to17 w).toNat := by
      rw [field21to17_toNat]
      simp only [bits] at hpart ⊢
      omega
    rw [decodeWord_of_alu hop, decodeAlu_rsvd16to31 _ halu]
    rfl
  | addi f => exact (congrArg tableRow (decodeWord_of_addi (operationField_of_row h))).trans rfl
  | extins f => exact (congrArg tableRow (decodeWord_of_extins (operationField_of_row h))).trans rfl
  | extshli f => exact (congrArg tableRow (decodeWord_of_extshli (operationField_of_row h))).trans rfl
  | extshlr f => exact (congrArg tableRow (decodeWord_of_extshlr (operationField_of_row h))).trans rfl
  | read f => exact (congrArg tableRow (decodeWord_of_read (operationField_of_row h))).trans rfl
  | unused b => exact (congrArg tableRow (decodeWord_of_unused (operationField_of_row h))).trans rfl
  | brz f =>
    have h : w &&& 0x00000037#32 = 0x00000007#32 := h
    rw [decodeWord_of_branch_row .zero false h (by decide) (by decide) (by decide)]
    rfl
  | brnz f =>
    have h : w &&& 0x00000037#32 = 0x00000017#32 := h
    rw [decodeWord_of_branch_row .notZero false h (by decide) (by decide) (by decide)]
    rfl
  | brzA f =>
    have h : w &&& 0x00000037#32 = 0x00000027#32 := h
    rw [decodeWord_of_branch_row .zero true h (by decide) (by decide) (by decide)]
    rfl
  | brnzA f =>
    have h : w &&& 0x00000037#32 = 0x00000037#32 := h
    rw [decodeWord_of_branch_row .notZero true h (by decide) (by decide) (by decide)]
    rfl
  | add f =>
    have h : w &&& 0x003E0007#32 = 0x00000000#32 := h
    rw [decodeWord_of_alu_row 0 h (by decide) (by decide)]
    rfl
  | addc f =>
    have h : w &&& 0x003E0007#32 = 0x00020000#32 := h
    rw [decodeWord_of_alu_row 1 h (by decide) (by decide)]
    rfl
  | sub f =>
    have h : w &&& 0x003E0007#32 = 0x00040000#32 := h
    rw [decodeWord_of_alu_row 2 h (by decide) (by decide)]
    rfl
  | subb f =>
    have h : w &&& 0x003E0007#32 = 0x00060000#32 := h
    rw [decodeWord_of_alu_row 3 h (by decide) (by decide)]
    rfl
  | xor f =>
    have h : w &&& 0x003E0007#32 = 0x00100000#32 := h
    rw [decodeWord_of_alu_row 8 h (by decide) (by decide)]
    rfl
  | or f =>
    have h : w &&& 0x003E0007#32 = 0x00120000#32 := h
    rw [decodeWord_of_alu_row 9 h (by decide) (by decide)]
    rfl
  | and f =>
    have h : w &&& 0x003E0007#32 = 0x00140000#32 := h
    rw [decodeWord_of_alu_row 10 h (by decide) (by decide)]
    rfl
  | andn f =>
    have h : w &&& 0x003E0007#32 = 0x00160000#32 := h
    rw [decodeWord_of_alu_row 11 h (by decide) (by decide)]
    rfl
  | nand f =>
    have h : w &&& 0x003E0007#32 = 0x00180000#32 := h
    rw [decodeWord_of_alu_row 12 h (by decide) (by decide)]
    rfl
  | aluRsvd13 f =>
    have h : w &&& 0x003E0007#32 = 0x001A0000#32 := h
    rw [decodeWord_of_alu_row 13 h (by decide) (by decide)]
    rfl

/-! ## The row that a word decodes to matches the word -/

/-- The word of a well-formed instruction matches the instruction's row: the family `TableRow`, for any constructor. -/
theorem encode_matches_tableRow (i : Instr) : Laws.TableRow.Statement i := by
  cases i with
  | add f => exact Laws.TableRow.add f
  | addc f => exact Laws.TableRow.addc f
  | sub f => exact Laws.TableRow.sub f
  | subb f => exact Laws.TableRow.subb f
  | xor f => exact Laws.TableRow.xor f
  | or f => exact Laws.TableRow.or f
  | and f => exact Laws.TableRow.and f
  | andn f => exact Laws.TableRow.andn f
  | nand f => exact Laws.TableRow.nand f
  | aluRsvd4to7 op f => exact Laws.TableRow.aluRsvd4to7 op f
  | aluRsvd13 f => exact Laws.TableRow.aluRsvd13 f
  | aluRsvd14to15 op f => exact Laws.TableRow.aluRsvd14to15 op f
  | aluRsvd16to31 op f => exact Laws.TableRow.aluRsvd16to31 op f
  | addi f => exact Laws.TableRow.addi f
  | extins f => exact Laws.TableRow.extins f
  | extshli f => exact Laws.TableRow.extshli f
  | extshlr f => exact Laws.TableRow.extshlr f
  | read f => exact Laws.TableRow.read f
  | unused b => exact Laws.TableRow.unused b
  | brz f => exact Laws.TableRow.brz f
  | brnz f => exact Laws.TableRow.brnz f
  | brzA f => exact Laws.TableRow.brzA f
  | brnzA f => exact Laws.TableRow.brnzA f

theorem row_eq_tableRow (i : Instr) : Laws.TableRow.row i = tableRow i := by
  cases i <;> rfl

/-- Every word matches the row of the instruction it decodes to, being that instruction's word. -/
theorem word_matches_decoded_tableRow (w : Word) :
    w &&& (tableRow (decodeWord w)).1 = (tableRow (decodeWord w)).2 := by
  have h := encode_matches_tableRow (decodeWord w) (decodeWord_wf w)
  rwa [encode_decodeWord, row_eq_tableRow] at h

/-- Settles O4: a match fixes the fields that the decoder reads its row from, and every word matches the row of the
instruction whose word it is. -/
theorem decodedRowIsTheMatchingRow : Obligations.DecodedRowIsTheMatchingRow := by
  intro w i
  constructor
  · exact tableRow_decodeWord_of_matches
  · intro h
    exact h ▸ word_matches_decoded_tableRow w

end Sys2Proof
end

section
/-! The fields of a word by number: where the decoder reads them (O5, O6, O1), and the words of the
pseudo-instructions that the encoder makes of them (O9). -/

namespace Sys2Proof

open Sys2Proof.Spec Sys2Proof.Machine

/-! ## Reading -/

theorem ofBits_eq_regOf (b : BitVec 3) : Reg.ofBits b = regOf b.toNat := rfl

theorem ofBits_eq_resOf (b : BitVec 3) : ResultOp.ofBits b = resOf b.toNat := rfl

/-- A one-bit field is read as whether its number is 1 (R10). -/
theorem bitField_eq_decide (w : Word) (k : Nat) : bitField w k = decide (bits w k 1 = 1) := by
  rw [← extractLsb'_toNat_eq_bits, bitField]
  generalize w.extractLsb' k 1 = b
  revert b
  decide

theorem resultField_eq (w : Word) : resultField w = resOf (bits w 4 3) := by
  rw [resultField, ofBits_eq_resOf, extractLsb'_toNat_eq_bits]

theorem exitField_eq (w : Word) : exitField w = decide (bits w 7 1 = 1) := bitField_eq_decide w 7

theorem dstField_eq (w : Word) : dstField w = regOf (bits w 8 3) := by
  rw [dstField, ofBits_eq_regOf, extractLsb'_toNat_eq_bits]

theorem srcAField_eq (w : Word) : srcAField w = regOf (bits w 11 3) := by
  rw [srcAField, ofBits_eq_regOf, extractLsb'_toNat_eq_bits]

theorem srcBField_eq (w : Word) : srcBField w = regOf (bits w 14 3) := by
  rw [srcBField, ofBits_eq_regOf, extractLsb'_toNat_eq_bits]

theorem immField_toNat (w : Word) : (immField w).toNat = bits w 14 18 := extractLsb'_toNat_eq_bits w 14 18

theorem sizeField_toNat (w : Word) : (sizeField w).toNat = bits w 22 5 := extractLsb'_toNat_eq_bits w 22 5

theorem field31to27_toNat (w : Word) : (field31to27 w).toNat = bits w 27 5 := extractLsb'_toNat_eq_bits w 27 5

/-- The record of fields that an instruction carries, by format. -/
inductive Format where
  | alu (f : AluFields)
  | imm (f : ImmFields)
  | insert (f : InsertFields)
  | shiftImm (f : ShiftImmFields)
  | shiftReg (f : ShiftRegFields)
  | unused (bits31to3 : BitVec 29)
  | branch (f : BranchFields)

/-- The format of an instruction, with its fields. -/
def Instr.format (i : Instr) : Format :=
  match i with
  | .add f | .addc f | .sub f | .subb f | .xor f | .or f | .and f | .andn f | .nand f => .alu f
  | .aluRsvd4to7 _ f | .aluRsvd13 f | .aluRsvd14to15 _ f | .aluRsvd16to31 _ f => .alu f
  | .addi f | .read f => .imm f
  | .extins f => .insert f
  | .extshli f => .shiftImm f
  | .extshlr f => .shiftReg f
  | .unused b => .unused b
  | .brz f | .brnz f | .brzA f | .brnzA f => .branch f

theorem format_decodeAlu (op : BitVec 5) (f : AluFields) : (decodeAlu op f).format = .alu f := by
  have hd := decodesAluAs_decodeAlu op f
  generalize decodeAlu op f = i at hd ⊢
  cases hd <;> rfl

theorem format_decodeBranch (c : BranchCondition) (annul : Bool) (f : BranchFields) :
    (decodeBranch c annul f).format = .branch f := by
  cases c <;> cases annul <;> rfl

/-- The fields of the format that a word's instruction has are the word's own. -/
theorem format_decodeWord (w : Word) :
    (decodeWord w).format = .alu (aluFields w) ∨ (decodeWord w).format = .imm (immFields w) ∨
    (decodeWord w).format = .insert (insertFields w) ∨ (decodeWord w).format = .shiftImm (shiftImmFields w) ∨
    (decodeWord w).format = .shiftReg (shiftRegFields w) ∨ (decodeWord w).format = .unused (w.extractLsb' 3 29) ∨
    (decodeWord w).format = .branch (branchFields w) := by
  have hd := decodesAs_decodeWord w
  generalize decodeWord w = i at hd ⊢
  cases hd with
  | alu => simp [format_decodeAlu]
  | branch => simp [format_decodeBranch]
  | _ => simp [Instr.format]

theorem alu_fields_eq {w : Word} {f : AluFields} (h : (decodeWord w).format = .alu f) : f = aluFields w := by
  simpa [h] using format_decodeWord w

theorem imm_fields_eq {w : Word} {f : ImmFields} (h : (decodeWord w).format = .imm f) : f = immFields w := by
  simpa [h] using format_decodeWord w

theorem insert_fields_eq {w : Word} {f : InsertFields} (h : (decodeWord w).format = .insert f) :
    f = insertFields w := by
  simpa [h] using format_decodeWord w

theorem shiftImm_fields_eq {w : Word} {f : ShiftImmFields} (h : (decodeWord w).format = .shiftImm f) :
    f = shiftImmFields w := by
  simpa [h] using format_decodeWord w

theorem shiftReg_fields_eq {w : Word} {f : ShiftRegFields} (h : (decodeWord w).format = .shiftReg f) :
    f = shiftRegFields w := by
  simpa [h] using format_decodeWord w

theorem branch_fields_eq {w : Word} {f : BranchFields} (h : (decodeWord w).format = .branch f) :
    f = branchFields w := by
  simpa [h] using format_decodeWord w

/-- Settles O5: the fields an instruction carries are the word's, and each of them is read by division. -/
theorem decodedFieldsStandAtTheirBits : Obligations.DecodedFieldsStandAtTheirBits := by
  intro w
  have hres := resultField_eq w
  have hexit := exitField_eq w
  have hdst := dstField_eq w
  have hsrcA := srcAField_eq w
  have hsrcB := srcBField_eq w
  have himm := immField_toNat w
  have hmid := field21to17_toNat w
  have hsize := sizeField_toNat w
  have htop := field31to27_toNat w
  refine ⟨fun f h => ?alu, fun f h => ?imm, fun f h => ?insert, fun f h => ?shiftImm, fun f h => ?shiftReg,
    fun f h => ?branch, by decide, by decide⟩
  case alu =>
    have hf : (decodeWord w).format = .alu f := by
      obtain h | h | h | h | h | h | h := h <;> rw [h] <;> rfl
    rw [alu_fields_eq hf]
    exact ⟨hres, hexit, hdst, hsrcA, hsrcB⟩
  case imm =>
    have hf : (decodeWord w).format = .imm f := by
      obtain h | h := h <;> rw [h] <;> rfl
    rw [imm_fields_eq hf]
    exact ⟨hres, hexit, hdst, hsrcA, himm⟩
  case insert =>
    rw [insert_fields_eq (congrArg Instr.format h)]
    exact ⟨hres, hexit, hdst, hsrcA, hsrcB, hmid, hsize, htop⟩
  case shiftImm =>
    rw [shiftImm_fields_eq (congrArg Instr.format h)]
    exact ⟨hres, hexit, hdst, hsrcA, hsrcB, hsize, htop⟩
  case shiftReg =>
    rw [shiftReg_fields_eq (congrArg Instr.format h)]
    exact ⟨hres, hexit, hdst, hsrcA, hsrcB, hmid, hsize⟩
  case branch =>
    have hf : (decodeWord w).format = .branch f := by
      obtain h | h | h | h := h <;> rw [h] <;> rfl
    rw [branch_fields_eq hf]
    exact ⟨hexit, hsrcA, himm⟩

/-- Settles O1: six words, each decoded. -/
theorem workedWordsDecode : Obligations.WorkedWordsDecode := by
  refine ⟨?_, ?_, ?_, ?_, ?_, ?_⟩ <;> decide

/-! ## The immediate -/

/-- The sign extension keeps the signed number (R71). -/
theorem immediate_toInt (imm : BitVec 18) : (immediate imm).toInt = imm.toInt :=
  BitVec.toInt_signExtend_of_le (by decide)

/-- The sign extension keeps the field's own bits. -/
theorem immediate_toNat_mod (imm : BitVec 18) : (immediate imm).toNat % 2 ^ 18 = imm.toNat := by
  have hlt := imm.isLt
  rw [immediate, BitVec.toNat_signExtend, BitVec.toNat_setWidth]
  split <;> omega

/-- An 18-bit field in two's complement (R71). -/
theorem toInt_eq_of_toNat (imm : BitVec 18) :
    imm.toInt = if imm.toNat < 2 ^ 17 then (imm.toNat : Int) else (imm.toNat : Int) - 2 ^ 18 := by
  rw [BitVec.toInt_eq_toNat_cond]
  congr 1
  exact propext (by omega)

/-- Settles O6: the number and its range by two's complement of the field, the overlap by the field's own low bits. -/
theorem immediateIsSignExtendedField : Obligations.ImmediateIsSignExtendedField := by
  intro w
  have hint : (immediate (immField w)).toInt =
      if bits w 14 18 < 2 ^ 17 then (bits w 14 18 : Int) else (bits w 14 18 : Int) - 2 ^ 18 := by
    rw [immediate_toInt, toInt_eq_of_toNat, immField_toNat]
  have hlt : bits w 14 18 < 2 ^ 18 := Nat.mod_lt _ (by decide)
  have hnat := immediate_toNat_mod (immField w)
  refine ⟨hint, ?above, ?below, ?srcB, ?middle⟩
  case above => omega
  case below => omega
  case srcB =>
    rw [srcBField, Reg.toBits_ofBits, extractLsb'_toNat_eq_bits]
    rw [immField_toNat, bits] at hnat
    rw [bits]
    omega
  case middle =>
    rw [field21to17_toNat]
    rw [immField_toNat, bits] at hnat
    rw [bits]
    omega

/-! ## Writing -/

/-- A field placed above the bits of a word adds its number there. -/
theorem or_placeAt_toNat {x : Word} {lo n : Nat} {b : BitVec n} (hx : x.toNat < 2 ^ lo) (hle : lo + n ≤ 32) :
    (x ||| placeAt lo b).toNat = x.toNat + b.toNat * 2 ^ lo := by
  have hb : b.toNat * 2 ^ lo < 2 ^ 32 :=
    calc b.toNat * 2 ^ lo
      _ < 2 ^ n * 2 ^ lo := Nat.mul_lt_mul_of_pos_right b.isLt (by positivity)
      _ = 2 ^ (lo + n) := by rw [← Nat.pow_add, Nat.add_comm]
      _ ≤ 2 ^ 32 := Nat.pow_le_pow_right (by decide) hle
  have hn : b.toNat < 2 ^ 32 := b.isLt.trans_le (Nat.pow_le_pow_right (by decide) (by omega))
  have hplace : (placeAt lo b).toNat = b.toNat * 2 ^ lo := by
    rw [placeAt, BitVec.toNat_shiftLeft, BitVec.toNat_setWidth, Nat.mod_eq_of_lt hn, Nat.shiftLeft_eq,
      Nat.mod_eq_of_lt hb]
  rw [BitVec.toNat_or, hplace, Nat.or_comm, Nat.mul_comm, ← Nat.two_pow_add_eq_or_of_lt hx, Nat.add_comm]

theorem placeAt_zero_toNat {n : Nat} (b : BitVec n) (hn : n ≤ 32) : (placeAt 0 b).toNat = b.toNat := by
  rw [placeAt, BitVec.shiftLeft_zero, BitVec.toNat_setWidth,
    Nat.mod_eq_of_lt (b.isLt.trans_le (Nat.pow_le_pow_right (by decide) hn))]

/-- The fields 10:0 by number. -/
theorem encodeLow_toNat (operation : BitVec 3) (bit3 : Bool) (res : ResultOp) (exit : Bool) (dst : Reg) :
    (encodeLow operation bit3 res exit dst).toNat =
      operation.toNat + bit3.toNat * 2 ^ 3 + res.toBits.toNat * 2 ^ 4 + exit.toNat * 2 ^ 7 +
        dst.toBits.toNat * 2 ^ 8 := by
  have hoperation := operation.isLt
  have hbit3 := bit3.toNat_le
  have hres := res.toBits.isLt
  have hexit := exit.toNat_le
  have h0 := placeAt_zero_toNat operation (by decide)
  have h3 := or_placeAt_toNat (lo := 3) (b := BitVec.ofBool bit3) (h0.trans_lt (by omega)) (by decide)
  rw [h0, BitVec.toNat_ofBool] at h3
  have h4 := or_placeAt_toNat (lo := 4) (b := res.toBits) (h3.trans_lt (by omega)) (by decide)
  rw [h3] at h4
  have h7 := or_placeAt_toNat (lo := 7) (b := BitVec.ofBool exit) (h4.trans_lt (by omega)) (by decide)
  rw [h4, BitVec.toNat_ofBool] at h7
  have h8 := or_placeAt_toNat (lo := 8) (b := dst.toBits) (h7.trans_lt (by omega)) (by decide)
  rwa [h7] at h8

/-- The fields 10:0 leave the bits above them 0. -/
theorem encodeLow_toNat_lt (operation : BitVec 3) (bit3 : Bool) (res : ResultOp) (exit : Bool) (dst : Reg) :
    (encodeLow operation bit3 res exit dst).toNat < 2 ^ 11 := by
  rw [encodeLow_toNat]
  have hoperation := operation.isLt
  have hbit3 := bit3.toNat_le
  have hres := res.toBits.isLt
  have hexit := exit.toNat_le
  have hdst := dst.toBits.isLt
  omega

theorem encodeImm_toNat (operation : BitVec 3) (f : ImmFields) :
    (encodeImm operation f).toNat =
      (encodeLow operation f.bit3 f.res f.exit f.dst).toNat + f.srcA.toBits.toNat * 2 ^ 11 + f.imm.toNat * 2 ^ 14 := by
  have hlow := encodeLow_toNat_lt operation f.bit3 f.res f.exit f.dst
  have hsrcA := f.srcA.toBits.isLt
  have h11 := or_placeAt_toNat (b := f.srcA.toBits) hlow (by decide)
  have h14 := or_placeAt_toNat (lo := 14) (b := f.imm) (h11.trans_lt (by omega)) (by decide)
  rwa [h11] at h14

theorem encodeAlu_toNat (op : BitVec 5) (f : AluFields) :
    (encodeAlu op f).toNat =
      (encodeLow 0 f.bit3 f.res f.exit f.dst).toNat + f.srcA.toBits.toNat * 2 ^ 11 + f.srcB.toBits.toNat * 2 ^ 14 +
        op.toNat * 2 ^ 17 + f.bits31to22.toNat * 2 ^ 22 := by
  have hlow := encodeLow_toNat_lt 0 f.bit3 f.res f.exit f.dst
  have hsrcA := f.srcA.toBits.isLt
  have hsrcB := f.srcB.toBits.isLt
  have hop := op.isLt
  have h11 := or_placeAt_toNat (b := f.srcA.toBits) hlow (by decide)
  have h14 := or_placeAt_toNat (lo := 14) (b := f.srcB.toBits) (h11.trans_lt (by omega)) (by decide)
  rw [h11] at h14
  have h17 := or_placeAt_toNat (lo := 17) (b := op) (h14.trans_lt (by omega)) (by decide)
  rw [h14] at h17
  have h22 := or_placeAt_toNat (lo := 22) (b := f.bits31to22) (h17.trans_lt (by omega)) (by decide)
  rwa [h17] at h22

theorem encode_plainAdd_toNat (res : ResultOp) (exit : Bool) (d a b : Reg) :
    (encode (plainAdd res exit d a b)).toNat =
      res.toBits.toNat * 2 ^ 4 + exit.toNat * 2 ^ 7 + d.toBits.toNat * 2 ^ 8 + a.toBits.toNat * 2 ^ 11 +
        b.toBits.toNat * 2 ^ 14 := by
  rw [plainAdd, encode, encodeAlu_toNat, encodeLow_toNat]
  simp

theorem encode_plainAddi_toNat (res : ResultOp) (d a : Reg) (imm : BitVec 18) :
    (encode (plainAddi res d a imm)).toNat =
      1 + res.toBits.toNat * 2 ^ 4 + d.toBits.toNat * 2 ^ 8 + a.toBits.toNat * 2 ^ 11 + imm.toNat * 2 ^ 14 := by
  rw [plainAddi, encode, encodeImm_toNat, encodeLow_toNat]
  simp

/-- Only the immediate of `B` is not fixed: the fields below it are those of `B #0`. -/
theorem encode_asmB_toNat (imm : BitVec 18) : (encode (asmB imm)).toNat = 0x27 + imm.toNat * 2 ^ 14 := by
  have hlow : encode (asmB imm) = 0x27#32 ||| placeAt 14 imm := by
    rw [asmB, encode, encodeBranch]
    congr 1
    dsimp only
    decide
  rw [hlow, or_placeAt_toNat (by decide) (by decide)]
  rfl

/-- Settles O9: each pseudo-instruction is a plain ADD or ADDI, or a branch, with the fields its expansion names. -/
theorem pseudoInstructionsHaveTheirWords : Obligations.PseudoInstructionsHaveTheirWords := by
  refine ⟨by decide, by decide, fun d a imm => ⟨?li, ?mov, ?fetch, ?send, ?setm, encode_asmB_toNat imm⟩⟩
  case li => exact (encode_plainAddi_toNat ..).trans (by simp [ResultOp.toBits, Reg.toBits])
  case mov => exact (encode_plainAdd_toNat ..).trans (by simp [ResultOp.toBits, Reg.toBits])
  case fetch => exact (encode_plainAdd_toNat ..).trans (by simp [ResultOp.toBits, Reg.toBits])
  case send => exact (encode_plainAdd_toNat ..).trans (by simp [ResultOp.toBits, Reg.toBits])
  case setm => exact (encode_plainAddi_toNat ..).trans (by simp [ResultOp.toBits, Reg.toBits])

end Sys2Proof
end

section
/-! The bitfield mask and the merge bit by bit (O29, O30), and the register shifts on both sides of 32 (O31). -/

namespace Sys2Proof.Machine

open Sys2Proof Sys2Proof.Spec

/-- The mask by number (R76): the power of two that it completes does not wrap, a size being at most 31. -/
theorem bitfieldMask_toNat (size : BitVec 5) : (bitfieldMask size).toNat = 2 ^ size.toNat - 1 := by
  have hsize : size.toNat < 32 := size.isLt
  have hlt : 2 ^ size.toNat - 1 < 2 ^ 32 :=
    (Nat.sub_le _ _).trans_lt (Nat.pow_lt_pow_right (by decide) hsize)
  rw [← maskOf_eq, maskOf, BitVec.toNat_ofNat, Nat.mod_eq_of_lt hlt]

theorem getLsbD_bitfieldMask (size : BitVec 5) (k : Nat) :
    (bitfieldMask size).getLsbD k = decide (k < size.toNat) := by
  rw [BitVec.getLsbD, bitfieldMask_toNat, Nat.testBit_two_pow_sub_one]

/-- Settles O29: the mask by number, bit by bit, and at both ends of the sizes. -/
theorem maskHasTheLowSizeBits : Obligations.MaskHasTheLowSizeBits :=
  ⟨getLsbD_bitfieldMask, bitfieldMask_toNat, by decide, by decide⟩

/-- A field of `size` bits from `src_bit` on, bit by bit. -/
theorem getLsbD_extractField (b : Word) (srcBit size : BitVec 5) (k : Nat) :
    (extractField b srcBit size).getLsbD k = (b.getLsbD (srcBit.toNat + k) && decide (k < size.toNat)) := by
  rw [extractField, BitVec.getLsbD_and, BitVec.getLsbD_ushiftRight, getLsbD_bitfieldMask]

/-- Settles O30: at a destination bit the mask clears `a` and lets the field's bit through; elsewhere it keeps `a` and
the field has no bit. -/
theorem extractInsertBitByBit : Obligations.ExtractInsertBitByBit := by
  intro a b srcBit size dstBit k hk
  have hmask : (bitfieldMask size <<< dstBit.toNat).getLsbD k =
      decide (dstBit.toNat ≤ k ∧ k < dstBit.toNat + size.toNat) := by
    rw [BitVec.getLsbD_shiftLeft, getLsbD_bitfieldMask, ← decide_not, ← Bool.decide_and, ← Bool.decide_and]
    exact decide_eq_decide.mpr (by omega)
  have hfield : (extractField b srcBit size <<< dstBit.toNat).getLsbD k =
      (decide (dstBit.toNat ≤ k ∧ k < dstBit.toNat + size.toNat) && b.getLsbD (k - dstBit.toNat + srcBit.toNat)) := by
    rw [← hmask, BitVec.getLsbD_shiftLeft, BitVec.getLsbD_shiftLeft, getLsbD_extractField, getLsbD_bitfieldMask,
      Nat.add_comm srcBit.toNat, Bool.and_comm (b.getLsbD _)]
    simp only [Bool.and_assoc]
  rw [insertField, BitVec.getLsbD_or, BitVec.getLsbD_and, BitVec.getLsbD_not, hmask, hfield]
  by_cases hin : dstBit.toNat ≤ k ∧ k < dstBit.toNat + size.toNat
  · simp [hin]
  · simp [hin, hk]

/-! ## Register shifts -/

theorem State.shiftRightReg_of_le {n : Word} (s : State) (x : Word) (h : n.toNat ≤ 31) :
    s.shiftRightReg x n = (x >>> n.toNat, s) :=
  if_pos (Nat.lt_succ_of_le h)

theorem State.shiftLeftReg_of_le {n : Word} (s : State) (x : Word) (h : n.toNat ≤ 31) :
    s.shiftLeftReg x n = (x <<< n.toNat, s) :=
  if_pos (Nat.lt_succ_of_le h)

theorem State.shiftRightReg_of_ge {n : Word} (s : State) (x : Word) (h : 32 ≤ n.toNat) :
    s.shiftRightReg x n = (Config.largeShift s.draws, { s with draws := s.draws + 1 }) :=
  if_neg (Nat.not_lt_of_le h)

theorem State.shiftLeftReg_of_ge {n : Word} (s : State) (x : Word) (h : 32 ≤ n.toNat) :
    s.shiftLeftReg x n = (Config.largeShift s.draws, { s with draws := s.draws + 1 }) :=
  if_neg (Nat.not_lt_of_le h)

/-- Settles O31: the two sides of 32, the plain shifts by number. -/
theorem registerShiftsDrawFrom32On : Obligations.RegisterShiftsDrawFrom32On := by
  intro s x n
  refine ⟨fun h => ?_, fun h => ⟨s.shiftRightReg_of_ge x h, s.shiftLeftReg_of_ge x h⟩⟩
  rw [s.shiftRightReg_of_le x h, s.shiftLeftReg_of_le x h, ← shiftedRight_eq, ← shiftedLeft_eq]
  exact ⟨rfl, rfl⟩

end Sys2Proof.Machine
end

section
/-! A result in closed form: what the statements write out field by field (`completed`, `overrun`) is what the shared
operations leave, one after the other (R170 to R184, R90, R95). -/

namespace Sys2Proof.Machine

open Sys2Proof Sys2Proof.Spec

/-! ## The parts of a next state -/

theorem State.advance_eq (s : State) : s.advance = { s with pc := dispatchPc s, pending := none } := by
  rw [← s.advance_pc_eq_dispatchPc]
  rfl

theorem RegFile.write_eq_regsWith (x : RegFile) (d : Reg) (v : Word) : x.write d v = regsWith x d v := by
  cases d <;> rfl

/-- The advance after a Send by number (R182). -/
theorem advanceAddress_eq_sentFrom (ma : Word) : advanceAddress ma = sentFrom ma := by
  have habove := advanceAddress_div ma
  have hbelow := addressField_advanceAddress_toNat ma
  rw [addressField_toNat, addressField_toNat, incrementField_toNat] at hbelow
  apply BitVec.eq_of_toNat_eq
  rw [sentFrom, BitVec.toNat_ofNat]
  omega

/-- The 6 bits that MoveAndSetMethodSend Sends, by number (R180). -/
theorem sentBits_eq (v : Word) : (v >>> 12) &&& 0x3F#32 = BitVec.ofNat 32 (v.toNat / 4096 % 64) := by
  apply BitVec.eq_of_toNat_eq
  have hmask : (0x3F#32).toNat = 2 ^ 6 - 1 := rfl
  rw [BitVec.toNat_and, hmask, Nat.and_two_pow_sub_one_eq_mod, BitVec.toNat_ushiftRight, Nat.shiftRight_eq_div_pow,
    BitVec.toNat_ofNat]
  omega

theorem State.send_eq (s : State) (v : Word) :
    s.send v =
      { s with
        methodAddress := sentFrom s.methodAddress
        trace := s.trace ++ [.write (BitVec.ofNat 32 (s.methodAddress.toNat % 4096)) v] } := by
  rw [← advanceAddress_eq_sentFrom, ← addressField_setWidth_eq_ofNat]
  rfl

theorem State.writeReg_eq (s : State) (d : Reg) (v : Word) :
    s.writeReg d v = { s with regs := regsWith s.regs d v } := by
  rw [State.writeReg, RegFile.write_eq_regsWith]

/-- The parameter at the cursor, where one is left (R171). -/
theorem parameterAt_eq {s : State} (h : s.cursor < s.parameters.length) : parameterAt s = s.parameters[s.cursor] := by
  simp [parameterAt, h]

/-! ## The result operation -/

/-- The state that a result operation finds: the advance done, and the events and draws of computing the result. -/
def resultComputed (s : State) (c : Computed) : State :=
  { s.advance with trace := s.trace ++ c.events, draws := s.draws + c.drawn }

/-- What a result operation that completes leaves of `s` (R173 to R182). -/
def resultApplied (s : State) (c : Computed) : State :=
  { s with
    regs := regsWith s.regs c.dst (written c.res c.value (parameterAt s))
    cursor := cursorAfter s c.res
    methodAddress :=
      match sent c.res c.value (parameterAt s) with
      | none => methodAddressSet s c
      | some _ => sentFrom (methodAddressSet s c)
    trace :=
      s.trace ++
        match sent c.res c.value (parameterAt s) with
        | none => []
        | some v => [.write (BitVec.ofNat 32 ((methodAddressSet s c).toNat % 4096)) v] }

/-- A fetch into a register, with a parameter left (R173). -/
theorem State.fetchInto_of_lt {s : State} (site : Site) (d : Reg) (h : s.cursor < s.parameters.length) :
    s.fetchInto site d =
      .ok { s with regs := regsWith s.regs d (parameterAt s), cursor := s.cursor + 1 } := by
  rw [State.fetchInto_ok d (s.fetchParameter_ok site h), State.writeReg_eq, parameterAt_eq h]

/-- A fetch into a register, with none left (R171). -/
theorem State.fetchInto_of_ge {s : State} (site : Site) (d : Reg) (h : s.parameters.length ≤ s.cursor) :
    s.fetchInto site d = .error (s.raise (.paramOverrun s.cursor site.word site.base)) := by
  rw [State.fetchInto, s.fetchParameter_error site h]

/-- A result operation that asks for no parameter, or finds one, completes. -/
theorem State.applyResult_of_parameterLeft (s : State) (site : Site) (c : Computed) (h : parameterLeft s c.res) :
    s.applyResult site c.res c.dst c.value = .ok (resultApplied s c) := by
  obtain ⟨x, ro, d, v, events, drawn⟩ := c
  cases ro with
  | mov | movsm | movsend | movsmsend =>
    simp [State.applyResult, State.writeReg_eq, State.setMethod, State.send_eq, sentBits_eq, resultApplied, written,
      sent, methodAddressSet, setsMethod, cursorAfter, fetches]
  | fetch | fetchsend | fetchsm =>
    have hlt : s.cursor < s.parameters.length := h rfl
    simp [State.applyResult, State.fetchInto_of_lt site d hlt, State.setMethod, State.send_eq, resultApplied, written,
      sent, methodAddressSet, setsMethod, cursorAfter, fetches]
  | movsmfetchsend =>
    have hlt : s.cursor < s.parameters.length := h rfl
    have hfetch := ((s.writeReg d v).setMethod v).fetchParameter_ok site hlt
    simp only [State.applyResult, hfetch]
    simp [State.writeReg_eq, State.setMethod, State.send_eq, resultApplied, written, sent,
      methodAddressSet, setsMethod, cursorAfter, fetches, parameterAt_eq hlt]

/-- A result operation that finds no parameter raises, with the writes done that stand before its fetch (R184). -/
theorem State.applyResult_of_noParameter (s : State) (site : Site) (c : Computed) (hf : fetches c.res = true)
    (h : s.parameters.length ≤ s.cursor) :
    s.applyResult site c.res c.dst c.value =
      .error { s with
        regs := if c.res = .movsmfetchsend then regsWith s.regs c.dst c.value else s.regs
        methodAddress := if c.res = .movsmfetchsend then c.value else s.methodAddress
        status := .faulted (.paramOverrun s.cursor site.word site.base) } := by
  obtain ⟨x, ro, d, v, events, drawn⟩ := c
  cases ro with
  | mov | movsm | movsend | movsmsend => exact absurd hf Bool.false_ne_true
  | fetch | fetchsend | fetchsm => simp [State.applyResult, State.fetchInto_of_ge site d h, State.raise]
  | movsmfetchsend =>
    have hfetch := ((s.writeReg d v).setMethod v).fetchParameter_error site h
    simp only [State.applyResult, hfetch]
    simp [State.raise, State.writeReg_eq, State.setMethod]

/-! ## The whole instruction -/

/-- The mode after an instruction that continues, by its exit flag and the mode before (R95 to R99). -/
def modeAfter (isExit : Bool) (m : SeqMode) : SeqMode :=
  match isExit, m with
  | true, _ => .delay true
  | false, .delay true => .delay true
  | false, _ => .normal

/-- The status of a halt (R214). -/
def haltStatus (s : State) : Status :=
  if s.cursor = s.parameters.length then .halted else .faulted (.paramUnconsumed s.cursor s.parameters.length)

theorem State.halt_eq (s : State) : s.halt = { s with status := haltStatus s } := by
  unfold State.halt haltStatus
  split <;> rfl

/-- The status after an instruction that continues: the delay slot of an exit halts (R97, R98). -/
def statusAfter (s : State) (isExit : Bool) (m : SeqMode) : Status :=
  match isExit, m with
  | true, _ => s.status
  | false, .delay true => haltStatus s
  | false, _ => s.status

/-- The sequencer on Continue, with the mode of the state before: the mode and the status, and nothing else. -/
theorem State.sequence_cont {s t : State} (h : t.seqMode = s.seqMode) (isExit : Bool) :
    t.sequence .cont isExit s.inDelay s.haltAfter =
      { t with seqMode := modeAfter isExit s.seqMode, status := statusAfter t isExit s.seqMode } := by
  unfold State.inDelay State.haltAfter
  rw [← h]
  cases isExit with
  | true => rfl
  | false =>
    cases hm : t.seqMode with
    | normal => rfl
    | delay haltAfter =>
      cases haltAfter with
      | false => rfl
      | true =>
        change t.halt = { t with seqMode := .delay true, status := haltStatus t }
        rw [State.halt_eq, ← hm]

/-- An instruction that completes: what its result operation leaves, sequenced. -/
theorem completed_eq_sequence (s : State) (c : Computed) :
    completed s c = (resultApplied (resultComputed s c) c).sequence .cont c.exit s.inDelay s.haltAfter := by
  have hmode : (resultApplied (resultComputed s c) c).seqMode = s.seqMode := rfl
  rw [State.sequence_cont hmode, resultComputed, State.advance_eq]
  rfl

/-- The next state of an instruction with word `w` that computed `c`: its result operation completes or finds no
parameter. -/
def resultNext (s : State) (c : Computed) (w : Word) : State :=
  if fetches c.res = true ∧ s.parameters.length ≤ s.cursor then overrun s c w else completed s c

theorem resultNext_of_parameterLeft {s : State} {c : Computed} (w : Word) (h : parameterLeft s c.res) :
    resultNext s c w = completed s c :=
  if_neg fun hnone => Nat.not_lt_of_le hnone.2 (h hnone.1)

theorem resultNext_of_noParameter {s : State} {c : Computed} (w : Word) (hf : fetches c.res = true)
    (h : s.parameters.length ≤ s.cursor) : resultNext s c w = overrun s c w :=
  if_pos ⟨hf, h⟩

/-- An operation with a result that computes `c`, in closed form. -/
theorem runResult_eq_resultNext (i : Instr) (c : Computed) (compute : Site → State → Except State (Word × State))
    (s : State) (hc : compute { word := encode i, base := s.pc } s.advance = .ok (c.value, resultComputed s c)) :
    runResult i c.exit c.res c.dst compute s = .next (resultNext s c (encode i)) := by
  unfold runResult runStep
  simp only [hc]
  by_cases h : fetches c.res = true ∧ s.parameters.length ≤ s.cursor
  · obtain ⟨hf, hlen⟩ := h
    rw [resultNext_of_noParameter _ hf hlen, (resultComputed s c).applyResult_of_noParameter _ c hf hlen,
      overrun, resultComputed, State.advance_eq]
  · have hleft : parameterLeft s c.res := fun hf => Nat.lt_of_not_le fun hlen => h ⟨hf, hlen⟩
    rw [resultNext_of_parameterLeft _ hleft, completed_eq_sequence,
      (resultComputed s c).applyResult_of_parameterLeft _ c hleft]

end Sys2Proof.Machine
end

section
/-! Every instruction in closed form: `exec` answers `nextState`, which the statements' own helpers write out. The
statements on single instructions are cases of it (O14, O17 to O22, O24 to O27, O38 to O40, O42, O43). -/

namespace Sys2Proof.Machine

open Sys2Proof Sys2Proof.Spec

/-! ## Instructions with a result -/

/-- A result that was computed without an event or a draw leaves the advanced state. -/
theorem resultComputed_of_pure {s : State} {c : Computed} (he : c.events = []) (hd : c.drawn = 0) :
    resultComputed s c = s.advance := by
  rw [resultComputed, he, hd, List.append_nil, Nat.add_zero]
  rfl

/-- An instruction that computes its result from the registers alone. -/
theorem runResult_eq_of_pure {i : Instr} {s : State} {c : Computed} {value : State → Word} (he : c.events = [])
    (hd : c.drawn = 0) (hv : value s.advance = c.value) :
    runResult i c.exit c.res c.dst (fun _ s1 => .ok (value s1, s1)) s = .next (resultNext s c (encode i)) := by
  apply runResult_eq_resultNext
  rw [resultComputed_of_pure he hd, hv]

theorem runAlu_eq {i : Instr} {f : AluFields} {alu : Word → Word → Word} {s : State} {v : Word}
    (h : alu (s.readReg f.srcA) (s.readReg f.srcB) = v) :
    runAlu i f alu s = .next (resultNext s (ofAlu f v) (encode i)) :=
  runResult_eq_of_pure (c := ofAlu f v) (value := fun s1 => alu (s1.readReg f.srcA) (s1.readReg f.srcB)) rfl rfl h

theorem exec_addi_eq (f : ImmFields) (s : State) :
    exec (.addi f) s = .next (resultNext s (ofAddi f s) (encode (.addi f))) :=
  runResult_eq_of_pure (c := ofAddi f s) (value := fun s1 => s1.readReg f.srcA + immediate f.imm) rfl rfl
    (ofAddi_value f s).symm

theorem exec_extins_eq (f : InsertFields) (s : State) :
    exec (.extins f) s = .next (resultNext s (ofExtins f s) (encode (.extins f))) :=
  runResult_eq_of_pure (c := ofExtins f s)
    (value := fun s1 => insertField (s1.readReg f.srcA) (s1.readReg f.srcB) f.srcBit f.size f.dstBit) rfl rfl
    (ofExtins_value f s).symm

/-- The exit flag, the result operation and the destination of EXTSHLI are its fields, on both sides of 32. -/
theorem ofExtshli_fields (f : ShiftImmFields) (s : State) :
    (ofExtshli f s).exit = f.exit ∧ (ofExtshli f s).res = f.res ∧ (ofExtshli f s).dst = f.dst := by
  unfold ofExtshli
  split <;> exact ⟨rfl, rfl, rfl⟩

theorem ofExtshlr_fields (f : ShiftRegFields) (s : State) :
    (ofExtshlr f s).exit = f.exit ∧ (ofExtshlr f s).res = f.res ∧ (ofExtshlr f s).dst = f.dst := by
  unfold ofExtshlr
  split <;> exact ⟨rfl, rfl, rfl⟩

theorem exec_extshli_eq (f : ShiftImmFields) (s : State) :
    exec (.extshli f) s = .next (resultNext s (ofExtshli f s) (encode (.extshli f))) := by
  obtain ⟨hexit, hres, hdst⟩ := ofExtshli_fields f s
  rw [exec_extshli, execExtshli, ← hexit, ← hres, ← hdst]
  apply runResult_eq_resultNext
  rw [State.readReg_advance, State.readReg_advance, ofExtshli]
  by_cases h : (s.readReg f.srcA).toNat ≤ 31
  · rw [if_pos h, State.shiftRightReg_of_le _ _ h, resultComputed_of_pure rfl rfl]
    simp only [shiftedLeft_eq, shiftedRight_eq, maskOf_eq]
  · rw [if_neg h, State.shiftRightReg_of_ge _ _ (Nat.lt_of_not_le h), resultComputed]
    simp only [shiftedLeft_eq, maskOf_eq, List.append_nil]
    rfl

theorem exec_extshlr_eq (f : ShiftRegFields) (s : State) :
    exec (.extshlr f) s = .next (resultNext s (ofExtshlr f s) (encode (.extshlr f))) := by
  obtain ⟨hexit, hres, hdst⟩ := ofExtshlr_fields f s
  rw [exec_extshlr, execExtshlr, ← hexit, ← hres, ← hdst]
  apply runResult_eq_resultNext
  rw [State.readReg_advance, State.readReg_advance, ofExtshlr]
  by_cases h : (s.readReg f.srcA).toNat ≤ 31
  · rw [if_pos h, State.shiftLeftReg_of_le _ _ h, resultComputed_of_pure rfl rfl]
    simp only [shiftedLeft_eq, shiftedRight_eq, maskOf_eq, extractField]
  · rw [if_neg h, State.shiftLeftReg_of_ge _ _ (Nat.lt_of_not_le h), resultComputed]
    simp only [List.append_nil]
    rfl

/-! ## READ -/

theorem readAddress_eq (f : ImmFields) (s : State) : readAddress f s = s.readReg f.srcA + immediate f.imm :=
  ofInt_toNat_add_toInt _ _

theorem readAdmits_iff (p : Params) (addr : Word) : readAdmits p addr = true ↔ addr ∉ p.readRefused := by
  simp [readAdmits]

/-- An admitted READ: the event and the draw of its engine read, then its result operation (R140, R48). -/
theorem exec_read_of_admitted {f : ImmFields} {s : State} (h : readAddress f s ∉ s.params.readRefused) :
    exec (.read f) s = .next (resultNext s (ofRead f s) (encode (.read f))) := by
  rw [exec_read, execRead]
  apply runResult_eq_resultNext (c := ofRead f s)
  rw [State.readReg_advance, ← readAddress_eq, State.advance_params, if_pos ((readAdmits_iff _ _).mpr h)]
  rfl

/-- A refused READ: the advance, then the fault (R142). -/
theorem exec_read_of_refused {f : ImmFields} {s : State} (h : readAddress f s ∈ s.params.readRefused) :
    exec (.read f) s = .next (faulted s (.readRefused (readAddress f s) (encode (.read f)) s.pc)) := by
  have hrefused : ¬ readAdmits s.params (readAddress f s) = true := fun ha => (readAdmits_iff _ _).mp ha h
  rw [exec_read, execRead, runResult, runStep, State.readReg_advance, ← readAddress_eq, State.advance_params,
    if_neg hrefused, faulted_eq]

/-! ## Branches -/

theorem testedReg_eq (f : BranchFields) (s : State) : s.readReg (testedReg s.params f) = tested f s := by
  have hsrcB : branchSrcB f.imm = regOf (f.imm.toNat % 8) := by
    rw [branchSrcB, ofBits_eq_regOf, BitVec.extractLsb'_toNat]
    rfl
  unfold testedReg tested
  cases s.params.branchTest with
  | srcB => exact congrArg s.readReg hsrcB
  | srcA => rfl

/-- Four times the immediate is the immediate shifted by 2, modulo 2^32 (R77). -/
theorem target_eq (f : BranchFields) (s : State) : target f s = branchTarget s.pc f.imm := by
  have hfour : immediate f.imm <<< 2 = BitVec.ofInt 32 (f.imm.toInt * 4) := by
    rw [BitVec.shiftLeft_eq_mul_twoPow, BitVec.ofInt_mul]
    rfl
  rw [target, branchTarget, BitVec.ofInt_add, ofInt_toNat, hfour]

/-- What a branch with word `w` leaves: the fault in a delay slot, else the taken state or the one that falls through.
-/
def branchNext (c : BranchCondition) (taken : BranchFields → State → State) (f : BranchFields) (w : Word) (s : State) :
    State :=
  if s.seqMode = .normal then
    if conditionHolds c (tested f s) then taken f s else fallsThrough f s
  else faulted s (.branchInDelaySlot w s.pc)

theorem State.inDelay_eq_false_iff (s : State) : s.inDelay = false ↔ s.seqMode = .normal := by
  simp [State.inDelay]

theorem fallsThrough_eq (f : BranchFields) {s : State} (h : s.seqMode = .normal) :
    s.advance.sequence .cont f.exit s.inDelay s.haltAfter = fallsThrough f s := by
  rw [State.sequence_cont s.advance_seqMode, h, State.advance_eq, fallsThrough]
  cases f.exit <;> rfl

theorem runBranch_eq {i : Instr} {c : BranchCondition} {f : BranchFields} {take : State → Word → Flow × State}
    {taken : BranchFields → State → State} {s : State}
    (ht : (take s.advance (target f s)).2.sequence (take s.advance (target f s)).1 f.exit s.inDelay s.haltAfter =
      taken f s) :
    runBranch i c f take s = .next (branchNext c taken f (encode i) s) := by
  unfold branchNext
  obtain ⟨hd, h⟩ | ⟨hd, hc, h⟩ | ⟨hd, hc, h⟩ := runBranch_cases i c f take s
  · rw [h, if_neg (fun hn => by simp [(s.inDelay_eq_false_iff).mpr hn] at hd), faulted_eq]
  · rw [testedReg_eq] at hc
    rw [h, if_pos (s.inDelay_eq_false_iff.mp hd), if_pos hc, ← target_eq, ht]
  · rw [testedReg_eq] at hc
    have hn := s.inDelay_eq_false_iff.mp hd
    rw [h, if_pos hn, if_neg (Bool.not_eq_true _ ▸ hc), fallsThrough_eq f hn]

theorem takeDelayed_sequence (f : BranchFields) (s : State) :
    (takeDelayed s.advance (target f s)).2.sequence (takeDelayed s.advance (target f s)).1 f.exit s.inDelay
      s.haltAfter = takenDelayed f s := by
  rw [State.advance_eq]
  rfl

theorem takeAnnulled_sequence (f : BranchFields) (s : State) :
    (takeAnnulled s.advance (target f s)).2.sequence (takeAnnulled s.advance (target f s)).1 f.exit s.inDelay
      s.haltAfter = takenAnnulled f s :=
  rfl

theorem exec_brz_eq (f : BranchFields) (s : State) :
    exec (.brz f) s = .next (branchNext .zero takenDelayed f (encode (.brz f)) s) :=
  runBranch_eq (takeDelayed_sequence f s)

theorem exec_brnz_eq (f : BranchFields) (s : State) :
    exec (.brnz f) s = .next (branchNext .notZero takenDelayed f (encode (.brnz f)) s) :=
  runBranch_eq (takeDelayed_sequence f s)

theorem exec_brzA_eq (f : BranchFields) (s : State) :
    exec (.brzA f) s = .next (branchNext .zero takenAnnulled f (encode (.brzA f)) s) :=
  runBranch_eq (takeAnnulled_sequence f s)

theorem exec_brnzA_eq (f : BranchFields) (s : State) :
    exec (.brnzA f) s = .next (branchNext .notZero takenAnnulled f (encode (.brnzA f)) s) :=
  runBranch_eq (takeAnnulled_sequence f s)

/-! ## Every instruction -/

/-- The next state of an instruction without a result: a fault, or a branch. -/
def resultlessNext (i : Instr) (w : Word) (s : State) : State :=
  match i with
  | .brz f => branchNext .zero takenDelayed f w s
  | .brnz f => branchNext .notZero takenDelayed f w s
  | .brzA f => branchNext .zero takenAnnulled f w s
  | .brnzA f => branchNext .notZero takenAnnulled f w s
  | .unused _ => faulted s (.unusedOp w s.pc)
  | .read f => faulted s (.readRefused (readAddress f s) w s.pc)
  | _ => faulted s (.aluUnimpl w s.pc)

/-- The next state of an instruction whose word is `w`. -/
def nextState (i : Instr) (w : Word) (s : State) : State :=
  match computes i s with
  | some c => resultNext s c w
  | none => resultlessNext i w s

theorem nextState_of_computes {i : Instr} {s : State} {c : Computed} {w : Word} (h : computes i s = some c) :
    nextState i w s = resultNext s c w := by
  rw [nextState, h]

theorem nextState_of_not_computes {i : Instr} {s : State} {w : Word} (h : computes i s = none) :
    nextState i w s = resultlessNext i w s := by
  rw [nextState, h]

/-- Every instruction answers its next state. -/
theorem exec_eq_nextState (i : Instr) (s : State) : exec i s = .next (nextState i (encode i) s) := by
  cases i with
  | add f => exact runAlu_eq (addValue_eq _ _).symm
  | sub f => exact runAlu_eq (subValue_eq _ _).symm
  | xor f => exact runAlu_eq rfl
  | or f => exact runAlu_eq rfl
  | and f => exact runAlu_eq rfl
  | andn f => exact (exec_andn f s).trans (runAlu_eq rfl)
  | nand f => exact (exec_nand f s).trans (runAlu_eq rfl)
  | addi f => exact exec_addi_eq f s
  | extins f => exact exec_extins_eq f s
  | extshli f => exact exec_extshli_eq f s
  | extshlr f => exact exec_extshlr_eq f s
  | read f =>
    by_cases h : readAddress f s ∈ s.params.readRefused
    · rw [nextState_of_not_computes (i := .read f) (if_pos h)]
      exact exec_read_of_refused h
    · rw [nextState_of_computes (i := .read f) (if_neg h)]
      exact exec_read_of_admitted h
  | brz f => exact exec_brz_eq f s
  | brnz f => exact exec_brnz_eq f s
  | brzA f => exact exec_brzA_eq f s
  | brnzA f => exact exec_brnzA_eq f s
  | unused b => exact (exec_unused b s).trans (congrArg _ (faulted_eq s _).symm)
  | addc f => exact (exec_addc f s).trans (congrArg _ (faulted_eq s _).symm)
  | subb f => exact (exec_subb f s).trans (congrArg _ (faulted_eq s _).symm)
  | aluRsvd4to7 op f => exact (exec_aluRsvd4to7 op f s).trans (congrArg _ (faulted_eq s _).symm)
  | aluRsvd13 f => exact (exec_aluRsvd13 f s).trans (congrArg _ (faulted_eq s _).symm)
  | aluRsvd14to15 op f => exact (exec_aluRsvd14to15 op f s).trans (congrArg _ (faulted_eq s _).symm)
  | aluRsvd16to31 op f => exact (exec_aluRsvd16to31 op f s).trans (congrArg _ (faulted_eq s _).symm)

/-- A result with its parameter, if it asks for one, completes. -/
theorem exec_of_computes {i : Instr} {s : State} {c : Computed} (hc : computes i s = some c)
    (hp : parameterLeft s c.res) : exec i s = .next (completed s c) := by
  rw [exec_eq_nextState, nextState_of_computes hc, resultNext_of_parameterLeft _ hp]

/-- A result whose parameter is not there does not complete. -/
theorem exec_of_noParameter {i : Instr} {s : State} {c : Computed} (hc : computes i s = some c)
    (hf : fetches c.res = true) (hlen : s.parameters.length ≤ s.cursor) :
    exec i s = .next (overrun s c (encode i)) := by
  rw [exec_eq_nextState, nextState_of_computes hc, resultNext_of_noParameter _ hf hlen]

theorem exec_of_not_computes {i : Instr} {s : State} (h : computes i s = none) :
    exec i s = .next (resultlessNext i (encode i) s) := by
  rw [exec_eq_nextState, nextState_of_not_computes h]

/-! ## The statements on single instructions -/

/-- Settles O17: each of the seven computes its value from both operands as read first. -/
theorem aluInstructionsComplete : Obligations.AluInstructionsComplete := by
  intro f s h
  exact ⟨exec_of_computes (i := .add f) rfl h, exec_of_computes (i := .sub f) rfl h,
    exec_of_computes (i := .xor f) rfl h, exec_of_computes (i := .or f) rfl h, exec_of_computes (i := .and f) rfl h,
    exec_of_computes (i := .andn f) rfl h, exec_of_computes (i := .nand f) rfl h⟩

/-- Settles O18: ADDI computes its sum in every state. -/
theorem addImmediateCompletes : Obligations.AddImmediateCompletes :=
  fun _ _ h => exec_of_computes rfl h

/-- Settles O19: EXTINS computes its merge in every state. -/
theorem extractInsertCompletes : Obligations.ExtractInsertCompletes :=
  fun _ _ h => exec_of_computes rfl h

/-- Settles O20: on both sides of 32 the result operation that asks for the parameter is the field. -/
theorem extractShiftsComplete : Obligations.ExtractShiftsComplete := by
  refine ⟨fun f s h => exec_of_computes rfl ?_, fun f s h => exec_of_computes rfl ?_⟩
  · rwa [(ofExtshli_fields f s).2.1]
  · rwa [(ofExtshlr_fields f s).2.1]

/-- Settles O21: where the address is admitted, READ computes the oracle's value. -/
theorem admittedReadCompletes : Obligations.AdmittedReadCompletes :=
  fun _ _ hadmitted h => exec_of_computes (if_neg hadmitted) h

/-- Settles O22: the refusal computes nothing, and the spec's own list of refused addresses is empty. -/
theorem refusedReadFaults : Obligations.RefusedReadFaults :=
  ⟨fun _ _ => exec_read_of_refused, fun addr => (readAdmits_iff Params.spec addr).mpr List.not_mem_nil⟩

/-- Settles O24: the four rows compute nothing. -/
theorem reservedAluInstructionsFault : Obligations.ReservedAluInstructionsFault :=
  fun op f _ => ⟨exec_of_not_computes (i := .aluRsvd4to7 op f) rfl, exec_of_not_computes (i := .aluRsvd13 f) rfl,
    exec_of_not_computes (i := .aluRsvd14to15 op f) rfl, exec_of_not_computes (i := .aluRsvd16to31 op f) rfl⟩

/-- Settles O27: the other side of `exec_of_computes`. -/
theorem missingParameterFaults : Obligations.MissingParameterFaults :=
  fun _ _ _ => exec_of_noParameter

/-! ## Words that only fault -/

theorem operationField_eq_of_bits {w : Word} {b : BitVec 3} (h : bits w 0 3 = b.toNat) : operationField w = b :=
  BitVec.eq_of_toNat_eq ((extractLsb'_toNat_eq_bits w 0 3).trans h)

/-- An ALU word whose sub-operation is not implemented, executed: of the thirteen rows the others are excluded by
number. -/
theorem exec_decodeAlu_unimplemented {op : BitVec 5} (f : AluFields) (s : State)
    (h : op.toNat = 1 ∨ op.toNat = 3 ∨ (4 ≤ op.toNat ∧ op.toNat ≤ 7) ∨ 13 ≤ op.toNat) :
    exec (decodeAlu op f) s = .next (faulted s (.aluUnimpl (encode (decodeAlu op f)) s.pc)) := by
  have hd := decodesAluAs_decodeAlu op f
  generalize decodeAlu op f = i at hd ⊢
  cases hd with
  | addc | subb | rsvd4to7 | rsvd13 | rsvd14to15 | rsvd16to31 => exact exec_of_not_computes rfl
  | _ => subst op; simp at h

/-- Settles O25: the word decodes to a row that faults with its own word, which is the word again. -/
theorem unimplementedAluWordsFault : Obligations.UnimplementedAluWordsFault := by
  intro w s hop halu
  have hdecode : decodeWord w = decodeAlu (field21to17 w) (aluFields w) :=
    decodeWord_of_alu (operationField_eq_of_bits hop)
  rw [← field21to17_toNat] at halu
  have hexec := exec_decodeAlu_unimplemented (aluFields w) s halu
  rwa [← hdecode, encode_decodeWord] at hexec

/-- Settles O26: UNUSED does nothing but fault, and a word whose bits 2:0 are 6 decodes to it. -/
theorem unusedWordsFault : Obligations.UnusedWordsFault := by
  have hunused (b : BitVec 29) (s : State) :
      exec (.unused b) s = .next (faulted s (.unusedOp (encode (.unused b)) s.pc)) := exec_of_not_computes rfl
  refine ⟨hunused, fun w s hop => ?_⟩
  have hdecode := decodeWord_of_unused (operationField_eq_of_bits hop)
  have hexec := hunused (w.extractLsb' 3 29) s
  rwa [← hdecode, encode_decodeWord] at hexec

/-! ## Branches outside a delay slot -/

theorem branchNext_taken {c : BranchCondition} {taken : BranchFields → State → State} {f : BranchFields} {s : State}
    (w : Word) (hm : s.seqMode = .normal) (hc : conditionHolds c (tested f s) = true) :
    branchNext c taken f w s = taken f s := by
  rw [branchNext, if_pos hm, if_pos hc]

theorem branchNext_untaken {c : BranchCondition} {taken : BranchFields → State → State} {f : BranchFields} {s : State}
    (w : Word) (hm : s.seqMode = .normal) (hc : conditionHolds c (tested f s) = false) :
    branchNext c taken f w s = fallsThrough f s := by
  rw [branchNext, if_pos hm, if_neg (Bool.eq_false_iff.mp hc)]

theorem branchNext_inDelay {c : BranchCondition} {taken : BranchFields → State → State} {f : BranchFields} {s : State}
    (w : Word) (hm : s.seqMode ≠ .normal) : branchNext c taken f w s = faulted s (.branchInDelaySlot w s.pc) := by
  rw [branchNext, if_neg hm]

theorem conditionHolds_zero_iff (v : Word) : conditionHolds .zero v = true ↔ v = 0 := beq_iff_eq

theorem conditionHolds_notZero_iff (v : Word) : conditionHolds .notZero v = true ↔ v ≠ 0 := bne_iff_ne

theorem conditionHolds_zero_of_ne {v : Word} (h : v ≠ 0) : conditionHolds .zero v = false :=
  beq_eq_false_iff_ne.mpr h

theorem conditionHolds_notZero_of_eq {v : Word} (h : v = 0) : conditionHolds .notZero v = false :=
  bne_eq_false_iff_eq.mpr h

/-- A branch outside a delay slot whose condition is true is taken. -/
theorem exec_of_taken {i : Instr} {c : BranchCondition} {taken : BranchFields → State → State} {f : BranchFields}
    {s : State} (hi : exec i s = .next (branchNext c taken f (encode i) s)) (hm : s.seqMode = .normal)
    (hc : conditionHolds c (tested f s) = true) : exec i s = .next (taken f s) := by
  rw [hi, branchNext_taken _ hm hc]

/-- A branch outside a delay slot whose condition is false falls through. -/
theorem exec_of_untaken {i : Instr} {c : BranchCondition} {taken : BranchFields → State → State} {f : BranchFields}
    {s : State} (hi : exec i s = .next (branchNext c taken f (encode i) s)) (hm : s.seqMode = .normal)
    (hc : conditionHolds c (tested f s) = false) : exec i s = .next (fallsThrough f s) := by
  rw [hi, branchNext_untaken _ hm hc]

/-- Settles O38: the taken branch, by what makes each condition true. -/
theorem takenBranchesEnterTheirDelaySlot : Obligations.TakenBranchesEnterTheirDelaySlot :=
  fun f s hm => ⟨fun h => exec_of_taken (exec_brz_eq f s) hm ((conditionHolds_zero_iff _).mpr h),
    fun h => exec_of_taken (exec_brnz_eq f s) hm ((conditionHolds_notZero_iff _).mpr h)⟩

/-- Settles O39: the taken branch, by what makes each condition true. -/
theorem takenAnnulledBranchesJump : Obligations.TakenAnnulledBranchesJump :=
  fun f s hm => ⟨fun h => exec_of_taken (exec_brzA_eq f s) hm ((conditionHolds_zero_iff _).mpr h),
    fun h => exec_of_taken (exec_brnzA_eq f s) hm ((conditionHolds_notZero_iff _).mpr h)⟩

/-- Settles O40: annulled or not, a branch whose condition is false falls through. -/
theorem untakenBranchesFallThrough : Obligations.UntakenBranchesFallThrough := by
  intro f s hm
  refine ⟨fun h => ?zero, fun h => ?notZero⟩
  case zero =>
    have hc := conditionHolds_zero_of_ne h
    exact ⟨exec_of_untaken (exec_brz_eq f s) hm hc, exec_of_untaken (exec_brzA_eq f s) hm hc⟩
  case notZero =>
    have hc := conditionHolds_notZero_of_eq h
    exact ⟨exec_of_untaken (exec_brnz_eq f s) hm hc, exec_of_untaken (exec_brnzA_eq f s) hm hc⟩

/-- Settles O42: `B` tests register 0, by its own field or by the low bits of its immediate. -/
theorem pseudoBranchIsUnconditional : Obligations.PseudoBranchIsUnconditional := by
  intro imm s hm h
  have htested :
      tested { exit := false, srcA := .r0, imm := imm, bit3 := false, bit6 := false, bits10to8 := 0 } s = 0 := by
    unfold tested
    cases hp : s.params.branchTest with
    | srcA => exact s.readReg_r0
    | srcB =>
      have hlow : imm.toNat % 8 = 0 := by simpa [hp] using h
      simp only [hlow]
      exact s.readReg_r0
  exact (takenAnnulledBranchesJump _ s hm).1 htested

/-- A branch commutes with an update of the state that leaves `pc`, the mode and the tested value, and that its three
next states commute with. -/
theorem branchNext_comm {c : BranchCondition} {taken : BranchFields → State → State} {f : BranchFields} {w : Word}
    {s : State} (u : State → State) (hpc : (u s).pc = s.pc) (hmode : (u s).seqMode = s.seqMode)
    (htested : tested f (u s) = tested f s) (htaken : taken f (u s) = u (taken f s))
    (hfalls : fallsThrough f (u s) = u (fallsThrough f s)) (hfaulted : ∀ e, faulted (u s) e = u (faulted s e)) :
    branchNext c taken f w (u s) = u (branchNext c taken f w s) := by
  unfold branchNext
  rw [hpc, hmode, htested, htaken, hfalls, hfaulted, apply_ite u, apply_ite u]

/-- Where `src_a` names the register that the immediate's low bits name, both test fields read it. -/
theorem tested_of_agreement {f : BranchFields} (h : f.srcA = regOf (f.imm.toNat % 8)) (s : State) :
    tested f s = s.readReg f.srcA := by
  unfold tested
  cases s.params.branchTest with
  | srcB => rw [h]
  | srcA => rfl

/-- Settles O43: each of the four leaves, under either test field, what it leaves of the state as it is. -/
theorem agreeingTestFieldsBranchAlike : Obligations.AgreeingTestFieldsBranchAlike := by
  intro f s i hagree hi
  refine ⟨resultlessNext i (encode i) s, ?_⟩
  have htested (p : Params) : tested f { s with params := p } = tested f s :=
    (tested_of_agreement hagree _).trans (tested_of_agreement hagree s).symm
  have hexec (p : Params) :
      exec i { s with params := p } = .next { resultlessNext i (encode i) s with params := p } := by
    obtain rfl | rfl | rfl | rfl := hi <;>
      exact (exec_of_not_computes rfl).trans (congrArg _
        (branchNext_comm (fun s => { s with params := p }) rfl rfl (htested p) rfl rfl fun _ => rfl))
  exact ⟨hexec _, hexec _⟩

end Sys2Proof.Machine
end

section
/-! What any instruction may leave, said once (`Leaves`), and the frames that follow from it: where `pc` stands (O15),
what is left unchanged (O28, O44), the trace (O45), the halt (O37). -/

namespace Sys2Proof.Machine

open Sys2Proof Sys2Proof.Spec

/-! ## The next states of an instruction -/

/-- The next states that an instruction can answer. -/
inductive Leaves (i : Instr) (s : State) : State → Prop where
  | completed (c : Computed) (hc : computes i s = some c) (hp : parameterLeft s c.res) : Leaves i s (completed s c)
  | overrun (c : Computed) (hc : computes i s = some c) (hf : fetches c.res = true)
      (hlen : s.parameters.length ≤ s.cursor) : Leaves i s (overrun s c (encode i))
  | faulted (f : Fault) : Leaves i s (faulted s f)
  | takenDelayed (f : BranchFields) (hm : s.seqMode = .normal) (hi : i = .brz f ∨ i = .brnz f) :
      Leaves i s (takenDelayed f s)
  | takenAnnulled (f : BranchFields) (hm : s.seqMode = .normal)
      (hi : (i = .brzA f ∧ tested f s = 0) ∨ (i = .brnzA f ∧ tested f s ≠ 0)) : Leaves i s (takenAnnulled f s)
  | fallsThrough (f : BranchFields) (hm : s.seqMode = .normal) : Leaves i s (fallsThrough f s)

/-- A branch leaves its fault, its taken state or the one that falls through. -/
theorem leaves_branchNext {i : Instr} {c : BranchCondition} {taken : BranchFields → State → State} {f : BranchFields}
    {w : Word} {s : State}
    (ht : s.seqMode = .normal → conditionHolds c (tested f s) = true → Leaves i s (taken f s)) :
    Leaves i s (branchNext c taken f w s) := by
  by_cases hm : s.seqMode = .normal
  · cases hc : conditionHolds c (tested f s) with
    | true => exact branchNext_taken w hm hc ▸ ht hm hc
    | false => exact branchNext_untaken w hm hc ▸ .fallsThrough f hm
  · exact branchNext_inDelay w hm ▸ .faulted _

/-- An instruction without a result leaves a fault, or is a branch. -/
theorem leaves_resultlessNext (i : Instr) (s : State) : Leaves i s (resultlessNext i (encode i) s) := by
  cases i with
  | brz f => exact leaves_branchNext fun hm _ => .takenDelayed f hm (.inl rfl)
  | brnz f => exact leaves_branchNext fun hm _ => .takenDelayed f hm (.inr rfl)
  | brzA f =>
    exact leaves_branchNext fun hm hc => .takenAnnulled f hm (.inl ⟨rfl, (conditionHolds_zero_iff _).mp hc⟩)
  | brnzA f =>
    exact leaves_branchNext fun hm hc => .takenAnnulled f hm (.inr ⟨rfl, (conditionHolds_notZero_iff _).mp hc⟩)
  | _ => exact .faulted _

theorem leaves_nextState (i : Instr) (s : State) : Leaves i s (nextState i (encode i) s) := by
  cases hc : computes i s with
  | none => exact nextState_of_not_computes hc ▸ leaves_resultlessNext i s
  | some c =>
    rw [nextState_of_computes hc]
    by_cases h : fetches c.res = true ∧ s.parameters.length ≤ s.cursor
    · obtain ⟨hf, hlen⟩ := h
      exact resultNext_of_noParameter _ hf hlen ▸ .overrun c hc hf hlen
    · have hp : parameterLeft s c.res := fun hf => Nat.lt_of_not_le fun hlen => h ⟨hf, hlen⟩
      exact resultNext_of_parameterLeft _ hp ▸ .completed c hc hp

/-- What an instruction answered is one of its next states. -/
theorem leaves_of_exec {i : Instr} {s t : State} (h : exec i s = .next t) : Leaves i s t := by
  rw [exec_eq_nextState] at h
  cases h
  exact leaves_nextState i s

/-- Settles O15: every other next state has the `pc` of the dispatch. -/
theorem pcAfterEveryInstruction : Obligations.PcAfterEveryInstruction := by
  intro i s t h
  cases leaves_of_exec h with
  | takenAnnulled f hm hi => exact .inr ⟨f, hi, hm, rfl⟩
  | _ => exact .inl rfl

/-! ## What an instruction computes, from its fields -/

/-- The exit flag, the result operation and the destination come from the instruction's own fields. -/
theorem fields_of_computes {i : Instr} {s : State} {c : Computed} (h : computes i s = some c) :
    exitFlag i = c.exit ∧ resultOp i = some c.res ∧ destination i = some c.dst := by
  cases i with
  | extshli f =>
    cases h
    obtain ⟨hexit, hres, hdst⟩ := ofExtshli_fields f s
    exact ⟨hexit.symm, congrArg some hres.symm, congrArg some hdst.symm⟩
  | extshlr f =>
    cases h
    obtain ⟨hexit, hres, hdst⟩ := ofExtshlr_fields f s
    exact ⟨hexit.symm, congrArg some hres.symm, congrArg some hdst.symm⟩
  | read f =>
    simp only [computes, Option.ite_none_left_eq_some] at h
    obtain ⟨-, h⟩ := h
    cases h
    exact ⟨rfl, rfl, rfl⟩
  | _ => cases h <;> exact ⟨rfl, rfl, rfl⟩

/-- Computing a result performs no engine event, unless it is READ's (R140). -/
theorem events_of_computes {i : Instr} {s : State} {c : Computed} (h : computes i s = some c) :
    c.events = [] ∨ ∃ f v, i = .read f ∧ c.events = [.read (readAddress f s) v] := by
  cases i with
  | extshli f =>
    cases h
    unfold ofExtshli
    split <;> exact .inl rfl
  | extshlr f =>
    cases h
    unfold ofExtshlr
    split <;> exact .inl rfl
  | read f =>
    simp only [computes, Option.ite_none_left_eq_some] at h
    obtain ⟨-, h⟩ := h
    cases h
    exact .inr ⟨f, _, rfl, rfl⟩
  | _ => cases h <;> exact .inl rfl

/-- An instruction with a result operation computes, but for a READ that may be refused. -/
theorem computes_of_resultOp {i : Instr} {ro : ResultOp} (s : State) (h : resultOp i = some ro)
    (hread : ∀ f, i ≠ .read f) : ∃ c, computes i s = some c := by
  cases i with
  | read f => exact absurd rfl (hread f)
  | add | sub | xor | or | and | andn | nand | addi | extins | extshli | extshlr => exact ⟨_, rfl⟩
  | _ => cases h

/-! ## Move to register 0 -/

theorem regsWith_r0 (x : RegFile) (v : Word) : regsWith x .r0 v = x := rfl

/-- The status of an instruction that completes, by the sequencer (R95, R214). -/
theorem completed_status (s : State) (c : Computed) :
    (completed s c).status = statusAfter (resultApplied (resultComputed s c) c) c.exit s.seqMode := rfl

theorem statusAfter_of_not_exit_chain {s : State} {isExit : Bool} {m : SeqMode}
    (h : ¬(m = .delay true ∧ isExit = false)) : statusAfter s isExit m = s.status := by
  unfold statusAfter
  split
  · rfl
  · exact absurd ⟨rfl, rfl⟩ h
  · rfl

/-- Settles O28: a Move into register 0 completes, and of the parts a completed instruction writes only the
sequencer's and the draw counter differ. -/
theorem moveToRegisterZeroChangesOnlyTheSequencer : Obligations.MoveToRegisterZeroChangesOnlyTheSequencer := by
  intro i s hmov hdst hread
  obtain ⟨c, hc⟩ := computes_of_resultOp s hmov hread
  obtain ⟨hexit, hres, hd⟩ := fields_of_computes hc
  have hevents : c.events = [] := by
    obtain he | ⟨f, -, hf, -⟩ := events_of_computes hc
    · exact he
    · exact absurd hf (hread f)
  rw [hmov] at hres
  rw [hdst] at hd
  obtain ⟨exit, ro, d, v, events, drawn⟩ := c
  cases hres
  cases hd
  cases hevents
  refine ⟨_, exec_of_computes hc (fun hf => absurd hf Bool.false_ne_true), ?frame, fun hchain => ?status⟩
  case frame => simp [completed, regsWith_r0, sent, methodAddressSet, setsMethod, cursorAfter, fetches]
  case status =>
    rw [hexit] at hchain
    exact (completed_status s _).trans (statusAfter_of_not_exit_chain hchain)

/-! ## The halt -/

theorem haltStatus_eq_halted_iff (s : State) : haltStatus s = .halted ↔ s.cursor = s.parameters.length := by
  unfold haltStatus
  split <;> simp [*]

/-- The sequencer halts a running invocation only in an exit's delay slot, with every parameter consumed (R97, R98,
R214). -/
theorem statusAfter_eq_halted {s : State} {isExit : Bool} {m : SeqMode} (hrun : s.status = .running)
    (h : statusAfter s isExit m = .halted) : m = .delay true ∧ isExit = false ∧ s.cursor = s.parameters.length := by
  by_cases hchain : m = .delay true ∧ isExit = false
  · obtain ⟨rfl, rfl⟩ := hchain
    exact ⟨rfl, rfl, (haltStatus_eq_halted_iff s).mp h⟩
  · rw [statusAfter_of_not_exit_chain hchain, hrun] at h
    cases h

/-- Settles O37: every next state but a completed one keeps a running status or is faulted. -/
theorem haltsOnlyAtTheEndOfAnExitChain : Obligations.HaltsOnlyAtTheEndOfAnExitChain := by
  intro i s t hrun h hhalted
  cases leaves_of_exec h with
  | completed c hc hp =>
    obtain ⟨hexit, -, -⟩ := fields_of_computes hc
    obtain ⟨hm, hx, hcursor⟩ := statusAfter_eq_halted (s := resultApplied (resultComputed s c) c) hrun hhalted
    exact ⟨hm, hexit.trans hx, hcursor⟩
  | overrun => cases hhalted
  | faulted => cases hhalted
  | takenDelayed => cases hrun.symm.trans hhalted
  | takenAnnulled => cases hrun.symm.trans hhalted
  | fallsThrough => cases hrun.symm.trans hhalted

/-! ## The frame -/

theorem regsWith_read_ne (x : RegFile) {d r : Reg} (v : Word) (h : r ≠ d) : (regsWith x d v).read r = x.read r := by
  rw [← RegFile.write_eq_regsWith, RegFile.read_write_ne x v h]

/-- A result operation that neither sets the method address nor Sends leaves it (R172, R182). -/
theorem completed_methodAddress {s : State} {c : Computed} (h : writesMethodAddress c.res = false) :
    (completed s c).methodAddress = s.methodAddress := by
  obtain ⟨exit, ro, d, v, events, drawn⟩ := c
  cases ro with
  | fetch | mov => rfl
  | _ => cases h

theorem overrun_methodAddress {s : State} {c : Computed} {w : Word} (h : writesMethodAddress c.res = false) :
    (overrun s c w).methodAddress = s.methodAddress := by
  refine if_neg fun hres => ?_
  rw [hres] at h
  cases h

theorem overrun_readReg_ne {s : State} {c : Computed} {w : Word} {r : Reg} (h : r ≠ c.dst) :
    (overrun s c w).readReg r = s.readReg r := by
  unfold overrun State.readReg
  dsimp only
  split
  · exact regsWith_read_ne _ _ h
  · rfl

/-- The cursor moves on by one for a fetching result operation, and else stays (R171). -/
theorem cursorAfter_cases {s : State} {ro : ResultOp} (h : parameterLeft s ro) :
    cursorAfter s ro = s.cursor ∨
      (cursorAfter s ro = s.cursor + 1 ∧ s.cursor < s.parameters.length ∧ fetches ro = true) := by
  unfold cursorAfter
  split
  · exact .inr ⟨rfl, h ‹_›, ‹_›⟩
  · exact .inl rfl

/-- Settles O44: each next state field by field. -/
theorem instructionFrame : Obligations.InstructionFrame := by
  intro i s t h
  cases leaves_of_exec h with
  | completed c hc hp =>
    obtain ⟨-, hres, hdst⟩ := fields_of_computes hc
    refine ⟨rfl, rfl, rfl, rfl, rfl, fun r hr => ?_, fun hma => completed_methodAddress (hma _ hres), ?_,
      fun hpending => absurd rfl hpending⟩
    · exact regsWith_read_ne _ _ fun heq => hr (heq ▸ hdst)
    · obtain hcursor | ⟨hcursor, hlt, hf⟩ := cursorAfter_cases hp
      · exact .inl hcursor
      · exact .inr ⟨hcursor, hlt, _, hres, hf⟩
  | overrun c hc =>
    obtain ⟨-, hres, hdst⟩ := fields_of_computes hc
    exact ⟨rfl, rfl, rfl, rfl, rfl, fun r hr => overrun_readReg_ne fun heq => hr (heq ▸ hdst),
      fun hma => overrun_methodAddress (hma _ hres), .inl rfl, fun hpending => absurd rfl hpending⟩
  | takenDelayed f hm hi =>
    exact ⟨rfl, rfl, rfl, rfl, rfl, fun _ _ => rfl, fun _ => rfl, .inl rfl, fun _ => ⟨f, hi⟩⟩
  | faulted | takenAnnulled | fallsThrough =>
    exact ⟨rfl, rfl, rfl, rfl, rfl, fun _ _ => rfl, fun _ => rfl, .inl rfl, fun hpending => absurd rfl hpending⟩

/-! ## The trace -/

theorem sends_of_sent {ro : ResultOp} {v p q : Word} (h : sent ro v p = some q) : sends ro = true := by
  cases ro with
  | fetch | mov | movsm | fetchsm => cases h
  | fetchsend | movsend | movsmfetchsend | movsmsend => rfl

/-- A completed instruction appends the events of computing its result, then the write of a Send, if its result
operation Sends (R181). -/
theorem completed_trace (s : State) (c : Computed) :
    ∃ writes : List Event, (completed s c).trace = s.trace ++ c.events ++ writes ∧
      (writes = [] ∨ ∃ a v, sends c.res = true ∧ a.toNat < 4096 ∧ writes = [.write a v]) := by
  cases hsent : sent c.res c.value (parameterAt s) with
  | none =>
    refine ⟨[], ?_, .inl rfl⟩
    simp only [completed, hsent]
  | some q =>
    refine ⟨_, ?_, .inr ⟨BitVec.ofNat 32 ((methodAddressSet s c).toNat % 4096), q, sends_of_sent hsent, ?_, rfl⟩⟩
    · simp only [completed, hsent]
    · rw [BitVec.toNat_ofNat]
      omega

/-- Settles O45: only a completed result appends a write, and only READ's computing a read. -/
theorem traceOnlyGrows : Obligations.TraceOnlyGrows := by
  intro i s t h
  cases leaves_of_exec h with
  | completed c hc =>
    obtain ⟨-, hres, -⟩ := fields_of_computes hc
    obtain ⟨writes, htrace, hwrites⟩ := completed_trace s c
    refine ⟨c.events, writes, htrace, events_of_computes hc, ?_⟩
    obtain hnone | ⟨a, v, hsends, ha, hw⟩ := hwrites
    · exact .inl hnone
    · exact .inr ⟨c.res, a, v, hres, hsends, ha, hw⟩
  | overrun c hc => exact ⟨c.events, [], (List.append_nil _).symm, events_of_computes hc, .inl rfl⟩
  | faulted | takenDelayed | takenAnnulled | fallsThrough =>
    exact ⟨[], [], by simp [Spec.faulted, Spec.takenDelayed, Spec.takenAnnulled, Spec.fallsThrough], .inl rfl, .inl rfl⟩

end Sys2Proof.Machine
end

section
/-! The step in closed form (`stepNext`), total on every state (O14): the statements on a single step (O11 to O13,
O46), and a run as the step iterated. -/

namespace Sys2Proof.Machine

open Sys2Proof Sys2Proof.Spec

/-- The fetch finds no word exactly at a misaligned offset and past the program's end (R42). -/
theorem fetchWord_eq_none {p : List Word} {pc : Word} :
    fetchWord p pc = none ↔ pc.toNat % 4 ≠ 0 ∨ p.length ≤ pc.toNat / 4 := by
  unfold fetchWord
  split <;> simp [*]

/-- The next state of a step: of an instruction, of a fetch that fails, or of a request. -/
def stepNext (s : State) : State :=
  match s.status with
  | .running =>
    match fetchWord s.program s.pc with
    | none => s.raise (.fetchRange s.pc)
    | some w => nextState (decodeWord w) w s
  | .halted => s.idleStep
  | .faulted _ => s.idleStep

/-- A word's instruction answers its next state with the word itself as what a fault reports. -/
theorem exec_decodeWord (w : Word) (s : State) : exec (decodeWord w) s = .next (nextState (decodeWord w) w s) := by
  rw [exec_eq_nextState, encode_decodeWord]

theorem stepNext_of_fetched {s : State} {w : Word} (hrun : s.status = .running)
    (hf : fetchWord s.program s.pc = some w) : stepNext s = nextState (decodeWord w) w s := by
  simp only [stepNext, hrun, hf]

theorem stepNext_of_not_fetched {s : State} (hrun : s.status = .running) (hf : fetchWord s.program s.pc = none) :
    stepNext s = s.raise (.fetchRange s.pc) := by
  simp only [stepNext, hrun, hf]

theorem stepNext_of_idle {s : State} (h : s.idle) : stepNext s = s.idleStep := by
  cases hs : s.status with
  | running => exact absurd hs h
  | halted => simp only [stepNext, hs]
  | faulted f => simp only [stepNext, hs]

/-- Every step answers its next state. -/
theorem step_eq_stepNext (s : State) : step s = .next (stepNext s) := by
  obtain ⟨w, hrun, hf, h⟩ | ⟨hrun, hf, h⟩ | ⟨hidle, h⟩ := step_cases s
  · rw [h, exec_decodeWord, stepNext_of_fetched hrun hf]
  · rw [h, stepNext_of_not_fetched hrun hf]
  · rw [h, stepNext_of_idle hidle]

/-- Settles O14: by the closed form of the step. -/
theorem everyStateHasANextState : Obligations.EveryStateHasANextState :=
  fun s => ⟨stepNext s, step_eq_stepNext s⟩

/-- Settles O11: of the three things a step can do, the other two need another fetch or status. -/
theorem stepRunsTheDecodedWord : Obligations.StepRunsTheDecodedWord := by
  intro s w hrun haligned hword
  have hf : fetchWord s.program s.pc = some w := fetchWord_eq_some.mpr ⟨haligned, hword⟩
  rw [step_eq_stepNext, stepNext_of_fetched hrun hf, exec_decodeWord]

/-- Settles O12: both offsets are those where the fetch finds no word. -/
theorem fetchOutsideProgramFaults : Obligations.FetchOutsideProgramFaults := by
  intro s hrun houtside
  rw [step_eq_stepNext, stepNext_of_not_fetched hrun (fetchWord_eq_none.mpr houtside)]
  rfl

/-- With no request nothing happens between invocations (R36). -/
theorem State.idleStep_of_nil {s : State} (h : s.requests = []) : s.idleStep = s := by
  simp only [State.idleStep, h]

/-- Settles O13: the idle step with no request. -/
theorem endedInvocationStaysAsItIs : Obligations.EndedInvocationStaysAsItIs := by
  intro s hidle hreq
  rw [step_of_idle hidle, State.idleStep_of_nil hreq]

/-! ## The program outside the fetch -/

theorem computes_with_program (i : Instr) (s : State) (p : List Word) :
    computes i { s with program := p } = computes i s := rfl

theorem resultNext_with_program (s : State) (c : Computed) (w : Word) (p : List Word) :
    resultNext { s with program := p } c w = { resultNext s c w with program := p } := by
  unfold resultNext
  split <;> rfl

/-- No instruction reads the program: its word has been fetched. -/
theorem nextState_with_program (i : Instr) (w : Word) (s : State) (p : List Word) :
    nextState i w { s with program := p } = { nextState i w s with program := p } := by
  unfold nextState
  rw [computes_with_program]
  cases computes i s with
  | some c => exact resultNext_with_program s c w p
  | none =>
    cases i with
    | brz f | brnz f | brzA f | brnzA f =>
      exact branchNext_comm (fun s => { s with program := p }) rfl rfl rfl rfl rfl fun _ => rfl
    | _ => rfl

theorem fetchWord_congr {p q : List Word} {pc : Word} (h : p[pc.toNat / 4]? = q[pc.toNat / 4]?) :
    fetchWord p pc = fetchWord q pc := by
  rw [fetchWord, fetchWord, h]

/-- Settles O46: the step reads the program at the fetch alone. -/
theorem unfetchedWordsHaveNoEffect : Obligations.UnfetchedWordsHaveNoEffect := by
  intro s other hrun hsame
  have hother : fetchWord other s.pc = fetchWord s.program s.pc := fetchWord_congr hsame
  refine ⟨stepNext s, step_eq_stepNext s, (step_eq_stepNext _).trans (congrArg _ ?_)⟩
  cases hf : fetchWord s.program s.pc with
  | none =>
    rw [stepNext_of_not_fetched hrun hf]
    exact stepNext_of_not_fetched hrun (hother.trans hf)
  | some w =>
    rw [stepNext_of_fetched hrun hf, ← nextState_with_program]
    exact stepNext_of_fetched hrun (hother.trans hf)

/-! ## Runs -/

/-- A run of `k` steps is the step's next state, `k` times. -/
theorem run_eq_iterate (k : Nat) (s : State) : Sys2Proof.core.run k s = .next (stepNext^[k] s) := by
  induction k generalizing s with
  | zero => rfl
  | succ k ih => exact (run_succ Sys2Proof.core k s _ (step_eq_stepNext s)).trans (ih (stepNext s))

/-- What a step keeps a run keeps. -/
theorem iterate_stepNext_keeps {P : State → Prop} (hstep : ∀ s, P s → P (stepNext s)) {s : State} (h : P s) (k : Nat) :
    P (stepNext^[k] s) :=
  Function.Iterate.rec P h hstep k

/-- What a step keeps between two states a run keeps between them. -/
theorem iterate_stepNext_related {R : State → State → Prop} (hstep : ∀ s t, R s t → R (stepNext s) (stepNext t))
    {s t : State} (h : R s t) (k : Nat) : R (stepNext^[k] s) (stepNext^[k] t) := by
  induction k generalizing s t with
  | zero => exact h
  | succ k ih => exact ih (hstep s t h)

end Sys2Proof.Machine
end

section
/-! Bits 31:18 of the method address (R32): two runs that differ only there never differ elsewhere (O47), by a
simulation with one step lemma. -/

namespace Sys2Proof.Machine

open Sys2Proof Sys2Proof.Spec

/-- Two method addresses with the same two fields, bits 17:0 (R30, R31). -/
def sameFields (a b : Word) : Prop := a.toNat % 2 ^ 18 = b.toNat % 2 ^ 18

theorem and_fieldBits_toNat (a : Word) : (a &&& 0x0003FFFF#32).toNat = a.toNat % 2 ^ 18 := by
  have hmask : (0x0003FFFF#32).toNat = 2 ^ 18 - 1 := rfl
  rw [BitVec.toNat_and, hmask, Nat.and_two_pow_sub_one_eq_mod]

theorem and_fieldBits_eq_iff (a b : Word) : a &&& 0x0003FFFF#32 = b &&& 0x0003FFFF#32 ↔ sameFields a b := by
  rw [← BitVec.toNat_inj, and_fieldBits_toNat, and_fieldBits_toNat, sameFields]

/-- The two fields after a Send, by number: the address advanced, the increment as it was (R182). -/
theorem sentFrom_fields (a : Word) :
    (sentFrom a).toNat % 2 ^ 18 = a.toNat / 4096 % 64 * 4096 + (a.toNat % 4096 + a.toNat / 4096 % 64) % 4096 := by
  have hlt := a.isLt
  rw [sentFrom, BitVec.toNat_ofNat]
  omega

/-- The advance of a Send reads the two fields alone. -/
theorem sameFields_sentFrom {a b : Word} (h : sameFields a b) : sameFields (sentFrom a) (sentFrom b) := by
  unfold sameFields at *
  have haddress : a.toNat % 4096 = b.toNat % 4096 := by omega
  have hincrement : a.toNat / 4096 % 64 = b.toNat / 4096 % 64 := by omega
  rw [sentFrom_fields, sentFrom_fields, haddress, hincrement]

/-- `t` is `s` but for bits 31:18 of the method address. -/
def AgreeButUpperBits (s t : State) : Prop :=
  ∃ ma, t = { s with methodAddress := ma } ∧ sameFields ma s.methodAddress

/-- Two states that are one with the bits forgotten differ there alone. -/
theorem agreeButUpperBits_of_forget {s t : State} (h : forgetUpperBits s = forgetUpperBits t) :
    AgreeButUpperBits s t := by
  have hfields : s.methodAddress &&& 0x0003FFFF#32 = t.methodAddress &&& 0x0003FFFF#32 :=
    congrArg State.methodAddress h
  have hrest := congrArg (fun u : State => { u with methodAddress := t.methodAddress }) h
  exact ⟨t.methodAddress, hrest.symm, (and_fieldBits_eq_iff _ _).mp hfields.symm⟩

theorem AgreeButUpperBits.forget {s t : State} (h : AgreeButUpperBits s t) :
    forgetUpperBits s = forgetUpperBits t := by
  obtain ⟨ma, rfl, hma⟩ := h
  rw [forgetUpperBits, forgetUpperBits, (and_fieldBits_eq_iff _ _).mpr hma]

theorem AgreeButUpperBits.observe {s t : State} (h : AgreeButUpperBits s t) : s.observe = t.observe := by
  obtain ⟨ma, rfl, -⟩ := h
  rfl

/-! ## One step -/

/-- A completed result: the method address goes into the trace by its address field alone. -/
theorem completed_agree {s : State} {ma : Word} (h : sameFields ma s.methodAddress) (c : Computed) :
    AgreeButUpperBits (completed s c) (completed { s with methodAddress := ma } c) := by
  have hset : sameFields (methodAddressSet { s with methodAddress := ma } c) (methodAddressSet s c) := by
    unfold methodAddressSet
    split
    · rfl
    · exact h
  refine ⟨(completed { s with methodAddress := ma } c).methodAddress, ?rest, ?fields⟩
  case rest =>
    have haddress : (methodAddressSet { s with methodAddress := ma } c).toNat % 4096 =
        (methodAddressSet s c).toNat % 4096 := by
      unfold sameFields at hset
      omega
    unfold completed
    rw [haddress]
    rfl
  case fields =>
    have hparam : parameterAt { s with methodAddress := ma } = parameterAt s := rfl
    simp only [completed, hparam]
    cases sent c.res c.value (parameterAt s) with
    | none => exact hset
    | some q => exact sameFields_sentFrom hset

theorem overrun_agree {s : State} {ma : Word} (h : sameFields ma s.methodAddress) (c : Computed) (w : Word) :
    AgreeButUpperBits (overrun s c w) (overrun { s with methodAddress := ma } c w) := by
  refine ⟨_, rfl, ?_⟩
  unfold overrun
  dsimp only
  split
  · rfl
  · exact h

theorem resultlessNext_with_methodAddress (i : Instr) (w : Word) (s : State) (ma : Word) :
    resultlessNext i w { s with methodAddress := ma } = { resultlessNext i w s with methodAddress := ma } := by
  cases i with
  | brz f | brnz f | brzA f | brnzA f =>
    exact branchNext_comm (fun s => { s with methodAddress := ma }) rfl rfl rfl rfl rfl fun _ => rfl
  | _ => rfl

/-- An instruction without a result leaves the method address. -/
theorem resultlessNext_methodAddress (i : Instr) (w : Word) (s : State) :
    (resultlessNext i w s).methodAddress = s.methodAddress := by
  have hself := congrArg State.methodAddress (resultlessNext_with_methodAddress i w s s.methodAddress)
  exact hself

/-- An instruction keeps the two states together: what it computes does not read the method address. -/
theorem nextState_agree {s t : State} (h : AgreeButUpperBits s t) (i : Instr) (w : Word) :
    AgreeButUpperBits (nextState i w s) (nextState i w t) := by
  obtain ⟨ma, rfl, hma⟩ := h
  have hcomputes : computes i { s with methodAddress := ma } = computes i s := rfl
  cases hc : computes i s with
  | none =>
    rw [nextState_of_not_computes hc, nextState_of_not_computes (hcomputes.trans hc)]
    exact ⟨ma, resultlessNext_with_methodAddress i w s ma, (resultlessNext_methodAddress i w s).symm ▸ hma⟩
  | some c =>
    rw [nextState_of_computes hc, nextState_of_computes (hcomputes.trans hc), resultNext, resultNext]
    split
    · exact overrun_agree hma c w
    · exact completed_agree hma c

/-- A request keeps the two states together: an entry clears the whole register (R230), the others leave it. -/
theorem serve_agree {s t : State} (h : AgreeButUpperBits s t) (r : Request) :
    AgreeButUpperBits (s.serve r) (t.serve r) := by
  obtain ⟨ma, rfl, hma⟩ := h
  cases r with
  | addCode m w =>
    rw [State.serve, State.serve, State.addCode_eq, State.addCode_eq]
    exact ⟨ma, rfl, hma⟩
  | execute m ps =>
    rw [State.serve, State.serve, State.execute, State.execute]
    dsimp only
    cases findMethod s.methods m with
    | none => exact ⟨ma, rfl, hma⟩
    | some e =>
      cases ps with
      | nil => exact ⟨ma, rfl, hma⟩
      | cons p0 ps => exact ⟨0, rfl, rfl⟩

theorem idleStep_agree {s t : State} (h : AgreeButUpperBits s t) : AgreeButUpperBits s.idleStep t.idleStep := by
  obtain ⟨ma, ht, hma⟩ := h
  have hreq : t.requests = s.requests := ht ▸ rfl
  cases hr : s.requests with
  | nil =>
    rw [State.idleStep_of_nil hr, State.idleStep_of_nil (hreq.trans hr)]
    exact ⟨ma, ht, hma⟩
  | cons r rest =>
    rw [State.idleStep_of_cons hr, State.idleStep_of_cons (hreq.trans hr), ht]
    apply serve_agree
    exact ⟨ma, rfl, hma⟩

/-- A step keeps the two states together. -/
theorem stepNext_agree (s t : State) (h : AgreeButUpperBits s t) : AgreeButUpperBits (stepNext s) (stepNext t) := by
  have hidle := idleStep_agree h
  have hnext := nextState_agree h
  obtain ⟨ma, rfl, hma⟩ := h
  by_cases hrun : s.status = .running
  · cases hf : fetchWord s.program s.pc with
    | none =>
      rw [stepNext_of_not_fetched hrun hf, stepNext_of_not_fetched (s := { s with methodAddress := ma }) hrun hf]
      exact ⟨ma, rfl, hma⟩
    | some w =>
      rw [stepNext_of_fetched hrun hf, stepNext_of_fetched (s := { s with methodAddress := ma }) hrun hf]
      exact hnext (decodeWord w) w
  · rw [stepNext_of_idle hrun, stepNext_of_idle (s := { s with methodAddress := ma }) hrun]
    exact hidle

/-- Settles O47: a run keeps the two states together, and together they look alike. -/
theorem upperMethodAddressBitsAreUnobservable : Obligations.UpperMethodAddressBitsAreUnobservable := by
  intro s t h k
  have hrun := iterate_stepNext_related stepNext_agree (agreeButUpperBits_of_forget h) k
  exact ⟨_, _, run_eq_iterate k s, run_eq_iterate k t, hrun.forget, hrun.observe⟩

end Sys2Proof.Machine
end

section
/-! Bits that an operation ignores (R82, R84): words that differ only there do the same (O8). -/

namespace Sys2Proof.Machine

open Sys2Proof Sys2Proof.Spec

/-! ## Instructions up to their ignored bits -/

/-- The instruction with every ignored field 0. -/
def clearIgnored (i : Instr) : Instr :=
  match i with
  | .add f => .add { f with bit3 := false, bits31to22 := 0 }
  | .addc f => .addc { f with bit3 := false, bits31to22 := 0 }
  | .sub f => .sub { f with bit3 := false, bits31to22 := 0 }
  | .subb f => .subb { f with bit3 := false, bits31to22 := 0 }
  | .xor f => .xor { f with bit3 := false, bits31to22 := 0 }
  | .or f => .or { f with bit3 := false, bits31to22 := 0 }
  | .and f => .and { f with bit3 := false, bits31to22 := 0 }
  | .andn f => .andn { f with bit3 := false, bits31to22 := 0 }
  | .nand f => .nand { f with bit3 := false, bits31to22 := 0 }
  | .aluRsvd4to7 op f => .aluRsvd4to7 op { f with bit3 := false, bits31to22 := 0 }
  | .aluRsvd13 f => .aluRsvd13 { f with bit3 := false, bits31to22 := 0 }
  | .aluRsvd14to15 op f => .aluRsvd14to15 op { f with bit3 := false, bits31to22 := 0 }
  | .aluRsvd16to31 op f => .aluRsvd16to31 op { f with bit3 := false, bits31to22 := 0 }
  | .addi f => .addi { f with bit3 := false }
  | .extins f => .extins { f with bit3 := false }
  | .extshli f => .extshli { f with bit3 := false, bits21to17 := 0 }
  | .extshlr f => .extshlr { f with bit3 := false, bits31to27 := 0 }
  | .read f => .read { f with bit3 := false }
  | .unused _ => .unused 0
  | .brz f => .brz { f with bit3 := false, bit6 := false, bits10to8 := 0 }
  | .brnz f => .brnz { f with bit3 := false, bit6 := false, bits10to8 := 0 }
  | .brzA f => .brzA { f with bit3 := false, bit6 := false, bits10to8 := 0 }
  | .brnzA f => .brnzA { f with bit3 := false, bit6 := false, bits10to8 := 0 }

/-- No next state depends on an ignored field, the reported word apart. -/
theorem nextState_clearIgnored (i : Instr) (w : Word) (s : State) :
    nextState (clearIgnored i) w s = nextState i w s := by
  cases i <;> rfl

theorem clearIgnored_decodeAlu (op : BitVec 5) (f : AluFields) :
    clearIgnored (decodeAlu op f) = decodeAlu op { f with bit3 := false, bits31to22 := 0 } := by
  unfold decodeAlu
  split <;> rfl

theorem clearIgnored_decodeBranch (c : BranchCondition) (annul : Bool) (f : BranchFields) :
    clearIgnored (decodeBranch c annul f) =
      decodeBranch c annul { f with bit3 := false, bit6 := false, bits10to8 := 0 } := by
  cases c <;> cases annul <;> rfl

/-- The reported word is all that the word of an instruction changes. -/
theorem forgetWord_nextState (i : Instr) (w v : Word) (s : State) :
    forgetWord (nextState i w s) = forgetWord (nextState i v s) := by
  cases hc : computes i s with
  | some c =>
    rw [nextState_of_computes hc, nextState_of_computes hc, resultNext, resultNext]
    split <;> rfl
  | none =>
    rw [nextState_of_not_computes hc, nextState_of_not_computes hc]
    have hbranch (c : BranchCondition) (taken : BranchFields → State → State) (f : BranchFields) :
        forgetWord (branchNext c taken f w s) = forgetWord (branchNext c taken f v s) := by
      unfold branchNext
      split <;> rfl
    cases i with
    | brz f | brnz f | brzA f | brnzA f => exact hbranch _ _ f
    | _ => rfl

/-! ## Words up to their ignored bits -/

/-- A field outside the bits that may differ is the same in both words. -/
theorem extractLsb'_of_or_eq {w v m : Word} {lo n : Nat} (h : w ||| m = v ||| m) (hm : m.extractLsb' lo n = 0) :
    w.extractLsb' lo n = v.extractLsb' lo n := by
  have hfield := congrArg (BitVec.extractLsb' lo n) h
  rw [BitVec.extractLsb'_or, BitVec.extractLsb'_or, hm] at hfield
  simpa using hfield

/-- Which bits are ignored is the operation's alone (R82). -/
theorem ignoredBits_of_operation {w : Word} {b : BitVec 3} (h : operationField w = b) :
    ignoredBits w = ignoredBits (b.setWidth 32) := by
  have hmod : w.toNat % 8 = (b.setWidth 32).toNat % 8 := by
    have hb : w.toNat % 8 = b.toNat := by
      rw [← h, operationField, BitVec.extractLsb'_toNat]
      rfl
    rw [hb, BitVec.toNat_setWidth]
    omega
  rw [ignoredBits, ignoredBits, hmod]

/-- No operation ignores its own value. -/
theorem ignoredBits_extract_operation (w : Word) : (ignoredBits w).extractLsb' 0 3 = 0 := by
  unfold ignoredBits
  split <;> decide

/-- Words that agree outside their ignored bits decode to one instruction up to its ignored fields. -/
theorem clearIgnored_decodeWord {w v : Word} (h : w ||| ignoredBits w = v ||| ignoredBits w) :
    clearIgnored (decodeWord w) = clearIgnored (decodeWord v) := by
  have hop : operationField v = operationField w :=
    (extractLsb'_of_or_eq h (ignoredBits_extract_operation w)).symm
  obtain hw | hw | hw | hw | hw | hw | hw | hw := operation_cases (operationField w)
  · have hm : ignoredBits w = 0xFFC00008#32 := (ignoredBits_of_operation hw).trans (by decide)
    rw [hm] at h
    rw [decodeWord_of_alu hw, decodeWord_of_alu (hop.trans hw), clearIgnored_decodeAlu, clearIgnored_decodeAlu]
    simp (disch := decide) only [aluFields, resultField, exitField, bitField, dstField, srcAField, srcBField,
      field21to17, extractLsb'_of_or_eq h]
  · have hm : ignoredBits w = 0x00000008#32 := (ignoredBits_of_operation hw).trans (by decide)
    rw [hm] at h
    rw [decodeWord_of_addi hw, decodeWord_of_addi (hop.trans hw)]
    simp (disch := decide) only [clearIgnored, immFields, resultField, exitField, bitField, dstField, srcAField,
      immField, extractLsb'_of_or_eq h]
  · have hm : ignoredBits w = 0x00000008#32 := (ignoredBits_of_operation hw).trans (by decide)
    rw [hm] at h
    rw [decodeWord_of_extins hw, decodeWord_of_extins (hop.trans hw)]
    simp (disch := decide) only [clearIgnored, insertFields, resultField, exitField, bitField, dstField, srcAField,
      srcBField, field21to17, sizeField, field31to27, extractLsb'_of_or_eq h]
  · have hm : ignoredBits w = 0x003E0008#32 := (ignoredBits_of_operation hw).trans (by decide)
    rw [hm] at h
    rw [decodeWord_of_extshli hw, decodeWord_of_extshli (hop.trans hw)]
    simp (disch := decide) only [clearIgnored, shiftImmFields, resultField, exitField, bitField, dstField, srcAField,
      srcBField, sizeField, field31to27, extractLsb'_of_or_eq h]
  · have hm : ignoredBits w = 0xF8000008#32 := (ignoredBits_of_operation hw).trans (by decide)
    rw [hm] at h
    rw [decodeWord_of_extshlr hw, decodeWord_of_extshlr (hop.trans hw)]
    simp (disch := decide) only [clearIgnored, shiftRegFields, resultField, exitField, bitField, dstField, srcAField,
      srcBField, field21to17, sizeField, extractLsb'_of_or_eq h]
  · have hm : ignoredBits w = 0x00000008#32 := (ignoredBits_of_operation hw).trans (by decide)
    rw [hm] at h
    rw [decodeWord_of_read hw, decodeWord_of_read (hop.trans hw)]
    simp (disch := decide) only [clearIgnored, immFields, resultField, exitField, bitField, dstField, srcAField,
      immField, extractLsb'_of_or_eq h]
  · rw [decodeWord_of_unused hw, decodeWord_of_unused (hop.trans hw)]
    rfl
  · have hm : ignoredBits w = 0x00000748#32 := (ignoredBits_of_operation hw).trans (by decide)
    rw [hm] at h
    rw [decodeWord_of_branch hw, decodeWord_of_branch (hop.trans hw), clearIgnored_decodeBranch,
      clearIgnored_decodeBranch]
    simp (disch := decide) only [branchFields, conditionField, annulField, exitField, bitField, srcAField, immField,
      extractLsb'_of_or_eq h]
    rfl

/-- Settles O8: both words have one instruction up to its ignored fields, which no next state depends on, and one next
state up to the word reported. -/
theorem ignoredBitsChangeNothing : Obligations.IgnoredBitsChangeNothing := by
  intro w v s h
  refine ⟨_, _, exec_decodeWord w s, exec_decodeWord v s, ?_⟩
  calc forgetWord (nextState (decodeWord w) w s)
    _ = forgetWord (nextState (clearIgnored (decodeWord w)) w s) := by rw [nextState_clearIgnored]
    _ = forgetWord (nextState (clearIgnored (decodeWord v)) w s) := by rw [clearIgnored_decodeWord h]
    _ = forgetWord (nextState (decodeWord v) w s) := by rw [nextState_clearIgnored]
    _ = forgetWord (nextState (decodeWord v) v s) := forgetWord_nextState _ w v s

end Sys2Proof.Machine
end

section
/-! Uploads and requests (R52, R204, R230 to R235): an AddCode (O52), an Execute that enters (O50) or cannot (O51),
the fixed program over every run (O53), and what one invocation leaves to the next (O54). -/

namespace Sys2Proof.Machine

open Sys2Proof Sys2Proof.Spec

/-! ## One request -/

/-- The step that serves a request consumes it (R233). -/
theorem step_serves {s : State} {r : Request} {rest : List Request} (hidle : s.idle) (hreq : s.requests = r :: rest) :
    step s = .next (({ s with requests := rest } : State).serve r) := by
  rw [step_of_idle hidle, State.idleStep_of_cons hreq]

/-- Settles O52: AddCode puts one entry, which is found under its number, and every other number as before. -/
theorem addCodeAppendsToItsMethod : Obligations.AddCodeAppendsToItsMethod := by
  intro s m w rest hwf hidle hreq
  refine ⟨_, (step_serves hidle hreq).trans (congrArg _ (State.addCode_eq _ m w)), ?own, fun n hn => ?other⟩
  case own => exact findMethod_putMethod_same _ _ hwf
  case other => exact findMethod_putMethod_other _ _ hn

/-- The entry that an Execute writes back: the program it runs is fixed (R52). -/
theorem findMethod_after_fix {ms : List MethodEntry} {m : Word} {e : MethodEntry} (hwf : methodsWf ms = true)
    (hcode : findMethod ms m = some e) (p : Option (List Word)) :
    findMethod (putMethod ms { e with compiled := p }) m = some { e with compiled := p } := by
  obtain rfl := findMethod_number hcode
  exact findMethod_putMethod_same ms { e with compiled := p } hwf

/-- Settles O50: the entry written back holds the program that the invocation runs. -/
theorem executeFixesAndRunsTheProgram : Obligations.ExecuteFixesAndRunsTheProgram := by
  intro s m p0 ps rest e hwf hidle hreq hcode
  refine ⟨_, step_enters hidle hreq hcode, rfl, ?fixed, fun n hn => ?other⟩
  case fixed =>
    exact congrArg (Option.bind · (·.compiled)) (findMethod_after_fix hwf hcode (some e.program))
  case other =>
    exact findMethod_putMethod_other _ _ (findMethod_number hcode ▸ hn)

/-- Settles O51: the two ends of Execute before an entry, in their order (R204). -/
theorem executeThatCannotEnterFaults : Obligations.ExecuteThatCannotEnterFaults := by
  intro s m ps rest hidle hreq
  have hstep := step_serves hidle hreq
  obtain ⟨hnone, hexec⟩ | ⟨e, hcode, hps, hexec⟩ | ⟨e, p0, ps', hcode, hps, hexec⟩ :=
    State.execute_cases { s with requests := rest } m ps
  · refine ⟨fun _ => hstep.trans (congrArg _ hexec), fun hsome => absurd hnone hsome⟩
  · refine ⟨fun hnone => absurd (hcode.symm.trans hnone) (Option.some_ne_none e), fun _ _ =>
      ⟨_, hstep.trans (congrArg _ hexec), rfl, rfl, rfl, rfl, rfl, rfl, rfl, rfl, rfl, rfl, rfl⟩⟩
  · exact ⟨fun hnone => absurd (hcode.symm.trans hnone) (Option.some_ne_none e), fun _ hempty =>
      absurd (hps.symm.trans hempty) (List.cons_ne_nil _ _)⟩

/-! ## A fixed program -/

/-- No instruction touches the uploads (R55). -/
theorem nextState_methods (i : Instr) (s : State) : (nextState i (encode i) s).methods = s.methods := by
  obtain ⟨-, -, hmethods, -⟩ := instructionFrame i s _ (exec_eq_nextState i s)
  exact hmethods

/-- A step of a running invocation touches no uploads. -/
theorem stepNext_methods_of_running {s : State} (h : s.status = .running) : (stepNext s).methods = s.methods := by
  cases hf : fetchWord s.program s.pc with
  | none => rw [stepNext_of_not_fetched h hf, State.raise_methods]
  | some w =>
    have hmethods := nextState_methods (decodeWord w) s
    rwa [encode_decodeWord, ← stepNext_of_fetched h hf] at hmethods

theorem stepNext_methodsWf {s : State} (h : methodsWf s.methods = true) : methodsWf (stepNext s).methods = true := by
  by_cases hrun : s.status = .running
  · rwa [stepNext_methods_of_running hrun]
  · rw [stepNext_of_idle hrun]
    exact s.idleStep_methodsWf h

/-- An entry's fixed program is what an Execute of it runs (R52). -/
theorem program_of_compiled {e : MethodEntry} {p : List Word} (h : e.compiled = some p) : e.program = p := by
  rw [MethodEntry.program, h, Option.getD_some]

/-- A put keeps a method's fixed program, if an entry under its own number holds it. -/
theorem fixed_putMethod {ms : List MethodEntry} {m : Word} {p : List Word} (hwf : methodsWf ms = true)
    (h : (findMethod ms m).bind (·.compiled) = some p) {d : MethodEntry} (hd : d.number = m → d.compiled = some p) :
    (findMethod (putMethod ms d) m).bind (·.compiled) = some p := by
  by_cases hn : d.number = m
  · rw [← hn, findMethod_putMethod_same ms d hwf]
    exact hd hn
  · rwa [findMethod_putMethod_other ms d (Ne.symm hn)]

/-- An Execute fixes what is already fixed. -/
theorem compiled_of_executed {s : State} {n m : Word} {p : List Word} {e : MethodEntry}
    (hcode : findMethod s.methods n = some e) (hfixed : fixedProgram s m = some p) (hn : e.number = m) :
    some e.program = some p := by
  have hcompiled : (findMethod s.methods n).bind (·.compiled) = some p := by
    rwa [← findMethod_number hcode, hn]
  rw [hcode] at hcompiled
  exact congrArg some (program_of_compiled hcompiled)

/-- No request changes a fixed program. -/
theorem serve_keeps_fixedProgram {s : State} {m : Word} {p : List Word} (hwf : methodsWf s.methods = true)
    (h : fixedProgram s m = some p) (r : Request) : fixedProgram (s.serve r) m = some p := by
  cases r with
  | addCode n w =>
    rw [State.serve, State.addCode_eq]
    refine fixed_putMethod hwf h fun hn => ?_
    obtain rfl : n = m := hn
    exact h
  | execute n ps =>
    rw [State.serve]
    obtain ⟨-, hexec⟩ | ⟨e, hcode, -, hexec⟩ | ⟨e, p0, rest, hcode, -, hexec⟩ := s.execute_cases n ps
    · rw [hexec]
      exact h
    · rw [hexec]
      exact fixed_putMethod hwf h fun hn => compiled_of_executed hcode h hn
    · rw [hexec]
      exact fixed_putMethod hwf h fun hn => compiled_of_executed hcode h hn

/-- No step changes a fixed program. -/
theorem stepNext_keeps_fixedProgram {s : State} {m : Word} {p : List Word} (hwf : methodsWf s.methods = true)
    (h : fixedProgram s m = some p) : fixedProgram (stepNext s) m = some p := by
  by_cases hrun : s.status = .running
  · rwa [fixedProgram, stepNext_methods_of_running hrun]
  · rw [stepNext_of_idle hrun]
    cases hr : s.requests with
    | nil => rwa [State.idleStep_of_nil hr]
    | cons r rest =>
      rw [State.idleStep_of_cons hr]
      exact serve_keeps_fixedProgram (s := { s with requests := rest }) hwf h r

/-- The uploads are canonical and the method's program is fixed: what every step keeps (R52). -/
def FixedAt (m : Word) (p : List Word) (s : State) : Prop := methodsWf s.methods = true ∧ fixedProgram s m = some p

theorem stepNext_keeps_fixedAt (m : Word) (p : List Word) (s : State) (h : FixedAt m p s) : FixedAt m p (stepNext s) :=
  ⟨stepNext_methodsWf h.1, stepNext_keeps_fixedProgram h.1 h.2⟩

/-- Settles O53: the program stays fixed over the run, and the Execute that follows enters with the entry that holds
it. -/
theorem fixedProgramNeverChanges : Obligations.FixedProgramNeverChanges := by
  intro s m p hwf hfixed k
  have hkept : FixedAt m p (stepNext^[k] s) := iterate_stepNext_keeps (stepNext_keeps_fixedAt m p) ⟨hwf, hfixed⟩ k
  refine ⟨_, run_eq_iterate k s, hkept.2, fun p0 ps rest hidle hreq => ?_⟩
  obtain ⟨e, hcode, hcompiled⟩ := Option.bind_eq_some_iff.mp hkept.2
  exact ⟨_, step_enters hidle hreq hcode, program_of_compiled hcompiled, rfl⟩

/-! ## Independence of what was before -/

/-- Settles O54: either both Executes fault with nothing of the invocation to see, or both enter, and an entry gives
every element of the invocation its entry value. -/
theorem invocationsAreIndependentOfHistory : Obligations.InvocationsAreIndependentOfHistory := by
  intro s t m ps restS restT hs ht hmethods hreqS hreqT
  have hstepS := step_serves hs hreqS
  have hstepT := step_serves ht hreqT
  refine ⟨_, _, hstepS, hstepT, ?_⟩
  rw [State.serve, State.serve, State.execute, State.execute]
  dsimp only
  rw [hmethods]
  cases findMethod t.methods m with
  | none => exact ⟨rfl, rfl, fun hrun => by cases hrun⟩
  | some e =>
    cases ps with
    | nil => exact ⟨rfl, rfl, fun hrun => by cases hrun⟩
    | cons p0 ps => exact ⟨rfl, rfl, fun _ => rfl⟩

end Sys2Proof.Machine
end

section
/-! The invariant: at reset (O57), over every step (O58), and what follows for the fetch over every run (O59). -/

namespace Sys2Proof.Machine

open Sys2Proof Sys2Proof.Spec

/-- Settles O57: one fixed state, clause by clause. -/
theorem invariantHoldsAtReset : Obligations.InvariantHoldsAtReset := by
  unfold Obligations.InvariantHoldsAtReset
  decide

/-! ## The parts of the invariant after an instruction -/

/-- The advance keeps `pc` a multiple of 4: the pending target is one, and 2^32 is one (R26). -/
theorem dispatchPc_aligned {s : State} (hpc : s.pc.toNat % 4 = 0) (hpending : (s.pending.getD 0).toNat % 4 = 0) :
    (dispatchPc s).toNat % 4 = 0 := by
  unfold dispatchPc
  cases hp : s.pending with
  | some t => simpa [hp] using hpending
  | none =>
    rw [BitVec.toNat_ofNat]
    omega

/-- A branch's target is a multiple of 4 from its `pc` (R77). -/
theorem target_aligned (f : BranchFields) {s : State} (hpc : s.pc.toNat % 4 = 0) : (target f s).toNat % 4 = 0 := by
  rw [target, BitVec.toNat_ofInt]
  omega

/-- Computing a result writes nothing to the engine. -/
theorem events_inRange {i : Instr} {s : State} {c : Computed} (hc : computes i s = some c) :
    c.events.all eventInRange = true := by
  obtain he | ⟨f, v, -, he⟩ := events_of_computes hc <;> rw [he] <;> rfl

/-- The write of a completed instruction names an address below 4096 (R45). -/
theorem completed_trace_inRange {i : Instr} {s : State} {c : Computed} (hc : computes i s = some c)
    (h : s.trace.all eventInRange = true) : (completed s c).trace.all eventInRange = true := by
  have hevents := events_inRange hc
  obtain ⟨writes, htrace, rfl | ⟨a, v, -, ha, rfl⟩⟩ := completed_trace s c
  · simp [htrace, h, hevents]
  · simp [htrace, h, hevents, eventInRange, ha]

/-- The cursor stays within the parameters (R34, R171). -/
theorem cursorAfter_bounds {s : State} {ro : ResultOp} (h : parameterLeft s ro) (hlow : 1 ≤ s.cursor)
    (hhigh : s.cursor ≤ s.parameters.length) : 1 ≤ cursorAfter s ro ∧ cursorAfter s ro ≤ s.parameters.length := by
  obtain hcursor | ⟨hcursor, hlt, -⟩ := cursorAfter_cases h <;> omega

/-- What an instruction of a running invocation leaves keeps the invariant. -/
theorem Leaves.inv {i : Instr} {s t : State} (h : Leaves i s t) (hrun : s.status = .running) (hinv : s.Inv) :
    t.Inv := by
  obtain ⟨-, hpc, hpending, hlow, hhigh, -, htrace, hmethods⟩ := hinv
  have hdispatch := dispatchPc_aligned hpc hpending
  have hhalted {P : Prop} : s.status = .halted → P := fun hh => absurd (hrun.symm.trans hh) nofun
  cases h with
  | completed c hc hp =>
    obtain ⟨hlow', hhigh'⟩ := cursorAfter_bounds hp hlow hhigh
    refine ⟨fun hp => absurd rfl hp, hdispatch, rfl, hlow', hhigh', fun hh => ?_, completed_trace_inRange hc htrace,
      hmethods⟩
    obtain ⟨-, -, hcursor⟩ := statusAfter_eq_halted (s := resultApplied (resultComputed s c) c) hrun hh
    exact hcursor
  | overrun c hc hf hlen =>
    have htrace' : (s.trace ++ c.events).all eventInRange = true := by
      rw [List.all_append, htrace, events_inRange hc, Bool.and_true]
    exact ⟨fun hp => absurd rfl hp, hdispatch, rfl, hlow, hhigh, nofun, htrace', hmethods⟩
  | faulted f => exact ⟨fun hp => absurd rfl hp, hdispatch, rfl, hlow, hhigh, nofun, htrace, hmethods⟩
  | takenDelayed f => exact ⟨fun _ => rfl, hdispatch, target_aligned f hpc, hlow, hhigh, hhalted, htrace, hmethods⟩
  | takenAnnulled f =>
    exact ⟨fun hp => absurd rfl hp, target_aligned f hpc, rfl, hlow, hhigh, hhalted, htrace, hmethods⟩
  | fallsThrough f => exact ⟨fun hp => absurd rfl hp, hdispatch, rfl, hlow, hhigh, hhalted, htrace, hmethods⟩

/-! ## The invariant after a request -/

/-- A request keeps the invariant: AddCode and a failed Execute leave the invocation's elements, an entry sets them
all. -/
theorem serve_inv {s : State} (h : s.Inv) (r : Request) : (s.serve r).Inv := by
  obtain ⟨hdelay, hpc, hpending, hlow, hhigh, hhalted, htrace, hmethods⟩ := h
  cases r with
  | addCode m w =>
    have hmethods' := s.addCode_methodsWf m w hmethods
    rw [State.addCode_eq] at hmethods'
    rw [State.serve, State.addCode_eq]
    exact ⟨hdelay, hpc, hpending, hlow, hhigh, hhalted, htrace, hmethods'⟩
  | execute m ps =>
    have hmethods' := s.execute_methodsWf m ps hmethods
    rw [State.serve]
    obtain ⟨-, hexec⟩ | ⟨e, -, -, hexec⟩ | ⟨e, p0, rest, -, -, hexec⟩ := s.execute_cases m ps <;>
      rw [hexec] at hmethods' ⊢
    · exact ⟨hdelay, hpc, hpending, hlow, hhigh, nofun, rfl, hmethods'⟩
    · exact ⟨hdelay, hpc, hpending, hlow, hhigh, nofun, rfl, hmethods'⟩
    · have hlength : 1 ≤ (p0 :: rest).length := Nat.succ_le_of_lt (List.length_pos_of_ne_nil (List.cons_ne_nil _ _))
      exact ⟨fun hp => absurd rfl hp, rfl, rfl, le_rfl, hlength, nofun, rfl, hmethods'⟩

theorem idleStep_inv {s : State} (h : s.Inv) : s.idleStep.Inv := by
  cases hr : s.requests with
  | nil => rwa [State.idleStep_of_nil hr]
  | cons r rest =>
    rw [State.idleStep_of_cons hr]
    exact serve_inv (s := { s with requests := rest }) h r

/-! ## Steps and runs -/

theorem stepNext_inv (s : State) (h : s.Inv) : (stepNext s).Inv := by
  by_cases hrun : s.status = .running
  · cases hf : fetchWord s.program s.pc with
    | none =>
      rw [stepNext_of_not_fetched hrun hf]
      obtain ⟨hdelay, hpc, hpending, hlow, hhigh, -, htrace, hmethods⟩ := h
      exact ⟨hdelay, hpc, hpending, hlow, hhigh, nofun, htrace, hmethods⟩
    | some w =>
      rw [stepNext_of_fetched hrun hf]
      exact (leaves_of_exec (exec_decodeWord w s)).inv hrun h
  · rw [stepNext_of_idle hrun]
    exact idleStep_inv h

/-- Settles O58: an instruction keeps the invariant (`Leaves.inv`), and so does a request (`serve_inv`). -/
theorem everyStepKeepsTheInvariant : Obligations.EveryStepKeepsTheInvariant := by
  intro s t hinv hstep
  rw [step_eq_stepNext] at hstep
  cases hstep
  exact stepNext_inv s hinv

/-- Settles O59: the invariant after any number of steps has `pc` aligned, so a fetch can only miss past the end. -/
theorem noMisalignedFetchEverOccurs : Obligations.NoMisalignedFetchEverOccurs := by
  intro s hinv k
  have hkept : (stepNext^[k] s).Inv := iterate_stepNext_keeps stepNext_inv hinv k
  obtain ⟨-, hpc, -⟩ := hkept
  refine ⟨_, run_eq_iterate k s, hpc, fun hf => ?_⟩
  obtain hmisaligned | hpast := fetchWord_eq_none.mp hf
  · exact absurd hpc hmisaligned
  · exact hpast

end Sys2Proof.Machine
end

section
/-! The halt and the sequencer on their own (O35, O36), the reset state (O48), and what the caller gets to see (O55,
O56). -/

namespace Sys2Proof.Machine

open Sys2Proof Sys2Proof.Spec

/-- Settles O35: every row is a branch of the sequencer's definition. -/
theorem sequencerTable : Obligations.SequencerTable :=
  fun _ _ _ => ⟨rfl, rfl, rfl, rfl, rfl, rfl, rfl⟩

theorem haltStatus_of_unconsumed {s : State} (h : s.cursor ≠ s.parameters.length) :
    haltStatus s = .faulted (.paramUnconsumed s.cursor s.parameters.length) :=
  if_neg h

/-- Settles O36: the halt writes the status, by its one comparison. -/
theorem haltChecksTheParameters : Obligations.HaltChecksTheParameters := by
  intro s
  rw [State.halt_eq]
  refine ⟨fun h => ?_, fun h => ?_, rfl⟩
  · rw [(haltStatus_eq_halted_iff s).mpr h]
  · rw [haltStatus_of_unconsumed h]

/-- Settles O48: every element as the reset state is written out. -/
theorem resetIsInvocationEntry : Obligations.ResetIsInvocationEntry := by
  refine ⟨rfl, rfl, rfl, rfl, rfl, rfl, rfl, rfl, fun r _ => ?_⟩
  cases r <;> rfl

/-- Register files that read alike from register 1 on are equal: register 0 always reads 0 (R21). -/
theorem regs_eq_of_readReg {s t : State} (h : ∀ r, r ≠ .r0 → s.readReg r = t.readReg r) : s.regs = t.regs := by
  apply RegFile.ext_read
  intro r
  by_cases hr : r = .r0
  · rw [hr, RegFile.read_r0, RegFile.read_r0]
  · exact h r hr

/-- The registers of an observation (R215). -/
theorem observe_eq (s : State) :
    s.observe =
      { trace := s.trace, outcome := s.status, registers := if s.status = .halted then some s.regs else none } := by
  unfold State.observe
  cases s.status with
  | halted => rfl
  | running => rfl
  | faulted f => rfl

/-- Settles O55: the registers are compared only where both states have halted, and by what they read. -/
theorem observationIsTraceOutcomeAndHaltedRegisters : Obligations.ObservationIsTraceOutcomeAndHaltedRegisters := by
  intro s t
  rw [observe_eq, observe_eq, Observation.mk.injEq]
  refine and_congr_right fun _ => and_congr_right fun hstatus => ?_
  rw [← hstatus]
  by_cases hhalted : s.status = .halted
  · simp only [hhalted, if_true, Option.some.injEq, forall_const]
    exact ⟨fun hregs r _ => congrArg (RegFile.read · r) hregs, regs_eq_of_readReg⟩
  · simp [hhalted]

/-- Settles O56: by cases on the fault. -/
theorem faultCodesKeepTheCategoriesApart : Obligations.FaultCodesKeepTheCategoriesApart := by
  refine ⟨fun f => ?categories, fun _ _ => rfl, fun _ _ => rfl, fun _ _ => rfl, fun _ _ => rfl, fun _ _ _ => rfl,
    fun _ _ => rfl, rfl, fun _ => rfl, fun _ => rfl, fun _ => rfl, fun _ _ _ => rfl⟩
  cases f <;> simp [faultCategory, faultCode]

end Sys2Proof.Machine
end
